-- ==== Sys2Proof/Word.lean ====
section
/-! DEFINITION. The word types of the CHIP-8 CORE (spec/00_scope.md R6, R8, R9; spec/30_encoding.md R71). -/

namespace Sys2Proof

/-- A byte: a memory cell, a V register, a timer, the immediate `NN` (R6). -/
abbrev Byte := BitVec 8

/-- A 16-bit word: an instruction word, `PC`, `I`, a return address (R6). -/
abbrev Word := BitVec 16

/-- The 4-bit fields `X` and `Y`, each the number of a V register (R71, R74). -/
abbrev Reg := BitVec 4

/-- The 4-bit immediate `N` (R71). -/
abbrev Nibble := BitVec 4

/-- The 12-bit address field `NNN` (R71). -/
abbrev Addr12 := BitVec 12

/-- The number of `VF`, the flag register `V[0xF]` (spec/10_state.md R22). -/
abbrev VF : Reg := 0xF#4

end Sys2Proof
end

