-- ==== Sys2Proof/Syntax.lean ====
section
/-! DEFINITION. The 34 instructions of the opcode map (spec/30_encoding.md R75), in the table's order. -/

namespace Sys2Proof

/-- One constructor per row of spec/opcode_table.json, with the operand fields its format names (R72). -/
inductive Instr where
  /-- 00E0 CLS (R170) -/
  | cls
  /-- 00EE RET (R110) -/
  | ret
  /-- 1NNN JP (R111) -/
  | jp (nnn : Addr12)
  /-- 2NNN CALL (R112) -/
  | call (nnn : Addr12)
  /-- 3XNN SE_IMM (R113) -/
  | seImm (x : Reg) (nn : Byte)
  /-- 4XNN SNE_IMM (R114) -/
  | sneImm (x : Reg) (nn : Byte)
  /-- 5XY0 SE_REG (R115) -/
  | seReg (x y : Reg)
  /-- 6XNN LD_IMM (R130) -/
  | ldImm (x : Reg) (nn : Byte)
  /-- 7XNN ADD_IMM (R131) -/
  | addImm (x : Reg) (nn : Byte)
  /-- 8XY0 LD_REG (R132) -/
  | ldReg (x y : Reg)
  /-- 8XY1 OR (R133) -/
  | or (x y : Reg)
  /-- 8XY2 AND (R134) -/
  | and (x y : Reg)
  /-- 8XY3 XOR (R135) -/
  | xor (x y : Reg)
  /-- 8XY4 ADD_REG (R136) -/
  | addReg (x y : Reg)
  /-- 8XY5 SUB (R137) -/
  | sub (x y : Reg)
  /-- 8XY6 SHR (R138) -/
  | shr (x y : Reg)
  /-- 8XY7 SUBN (R139) -/
  | subn (x y : Reg)
  /-- 8XYE SHL (R140) -/
  | shl (x y : Reg)
  /-- 9XY0 SNE_REG (R116) -/
  | sneReg (x y : Reg)
  /-- ANNN LD_I (R150) -/
  | ldI (nnn : Addr12)
  /-- BNNN JP_OFS (R117): it uses `NNN` and the `X` of the same word -/
  | jpOfs (x : Reg) (nnn : Addr12)
  /-- CXNN RND (R141) -/
  | rnd (x : Reg) (nn : Byte)
  /-- DXYN DRW (R171) -/
  | drw (x y : Reg) (n : Nibble)
  /-- EX9E SKP (R180) -/
  | skp (x : Reg)
  /-- EXA1 SKNP (R181) -/
  | sknp (x : Reg)
  /-- FX07 LD_VX_DT (R183) -/
  | ldVxDt (x : Reg)
  /-- FX15 LD_DT_VX (R184) -/
  | ldDtVx (x : Reg)
  /-- FX18 LD_ST_VX (R185) -/
  | ldStVx (x : Reg)
  /-- FX1E ADD_I (R151) -/
  | addI (x : Reg)
  /-- FX0A LD_VX_K (R182) -/
  | ldVxK (x : Reg)
  /-- FX29 LD_F (R152) -/
  | ldF (x : Reg)
  /-- FX33 LD_B (R153) -/
  | ldB (x : Reg)
  /-- FX55 ST_REGS (R154) -/
  | stRegs (x : Reg)
  /-- FX65 LD_REGS (R155) -/
  | ldRegs (x : Reg)
  deriving DecidableEq, Repr

end Sys2Proof
end

