-- ==== Sys2Proof/WellFormed.lean ====
section
/-! DEFINITION. Which terms of `Instr` are instructions. Every field value of every format is valid
(spec/30_encoding.md R74, R77), so one check is left: BNNN has one operand `NNN`, and its `X` is the top nibble
of that `NNN` (R71, spec/41_control_flow.md R117; log 9). -/

namespace Sys2Proof

/-- `X` of a BNNN is the top nibble of its `NNN` (R71, R117). -/
def jpOfsOperandsAgree (x : Reg) (nnn : Addr12) : Bool := x == nnn.extractLsb 11 8

/-- The term is an instruction of the machine. -/
def Instr.wf : Instr → Bool
  | .jpOfs x nnn => jpOfsOperandsAgree x nnn
  | .cls | .ret | .jp _ | .call _ | .seImm _ _ | .sneImm _ _ | .seReg _ _ | .ldImm _ _ | .addImm _ _
  | .ldReg _ _ | .or _ _ | .and _ _ | .xor _ _ | .addReg _ _ | .sub _ _ | .shr _ _ | .subn _ _ | .shl _ _
  | .sneReg _ _ | .ldI _ | .rnd _ _ | .drw _ _ _ | .skp _ | .sknp _ | .ldVxDt _ | .ldDtVx _ | .ldStVx _
  | .addI _ | .ldVxK _ | .ldF _ | .ldB _ | .stRegs _ | .ldRegs _ => true

end Sys2Proof
end

