-- ==== Sys2Proof/Decode.lean ====
section
/-! DEFINITION. The decoder and the encoder (spec/30_encoding.md R70 to R77, R82), and the words' layout in
memory (spec/20_memory.md R54). -/

namespace Sys2Proof

/-- `OP = bits(w)[15:12]` (R71). -/
def fieldOP (w : Word) : Nibble := w.extractLsb 15 12

/-- `X = bits(w)[11:8]` (R71). -/
def fieldX (w : Word) : Reg := w.extractLsb 11 8

/-- `Y = bits(w)[7:4]` (R71). -/
def fieldY (w : Word) : Reg := w.extractLsb 7 4

/-- `N = bits(w)[3:0]` (R71). -/
def fieldN (w : Word) : Nibble := w.extractLsb 3 0

/-- `NN = bits(w)[7:0]` (R71). -/
def fieldNN (w : Word) : Byte := w.extractLsb 7 0

/-- `NNN = bits(w)[11:0]` (R71). -/
def fieldNNN (w : Word) : Addr12 := w.extractLsb 11 0

/-- Why a word selects no row of the opcode map: the six classes (a) to (f) of R76. -/
inductive Unmatched where
  /-- (a) OP = 0, neither 00E0 nor 00EE; the whole `0NNN` range is here (spec/90_conflicts.md C1) -/
  | op0
  /-- (b) OP = 5 with N ≠ 0 -/
  | op5
  /-- (c) OP = 8 with N in 8, 9, A, B, C, D, F -/
  | op8
  /-- (d) OP = 9 with N ≠ 0 -/
  | op9
  /-- (e) OP = E with NN neither 9E nor A1 -/
  | opE
  /-- (f) OP = F with NN none of the nine defined values -/
  | opF
  deriving DecidableEq, Repr

/-- Second level of group 0: the whole word is compared (R73). -/
def decodeOp0 (w : Word) : Except Unmatched Instr :=
  if w = 0x00E0#16 then .ok .cls
  else if w = 0x00EE#16 then .ok .ret
  else .error .op0

/-- Second level of group 8: bits 3:0 select (R73, R75). -/
def decodeOp8 (x y : Reg) (n : Nibble) : Except Unmatched Instr :=
  if n = 0x0#4 then .ok (.ldReg x y)
  else if n = 0x1#4 then .ok (.or x y)
  else if n = 0x2#4 then .ok (.and x y)
  else if n = 0x3#4 then .ok (.xor x y)
  else if n = 0x4#4 then .ok (.addReg x y)
  else if n = 0x5#4 then .ok (.sub x y)
  else if n = 0x6#4 then .ok (.shr x y)
  else if n = 0x7#4 then .ok (.subn x y)
  else if n = 0xE#4 then .ok (.shl x y)
  else .error .op8

/-- Second level of group E: bits 7:0 select (R73, R75). -/
def decodeOpE (x : Reg) (nn : Byte) : Except Unmatched Instr :=
  if nn = 0x9E#8 then .ok (.skp x)
  else if nn = 0xA1#8 then .ok (.sknp x)
  else .error .opE

/-- Second level of group F: bits 7:0 select (R73, R75). -/
def decodeOpF (x : Reg) (nn : Byte) : Except Unmatched Instr :=
  if nn = 0x07#8 then .ok (.ldVxDt x)
  else if nn = 0x15#8 then .ok (.ldDtVx x)
  else if nn = 0x18#8 then .ok (.ldStVx x)
  else if nn = 0x1E#8 then .ok (.addI x)
  else if nn = 0x0A#8 then .ok (.ldVxK x)
  else if nn = 0x29#8 then .ok (.ldF x)
  else if nn = 0x33#8 then .ok (.ldB x)
  else if nn = 0x55#8 then .ok (.stRegs x)
  else if nn = 0x65#8 then .ok (.ldRegs x)
  else .error .opF

/-- The decoder: a total function of the word alone (R82), dispatching on OP and then, in groups 0, 5, 8, 9, E and
F, on the fixed digits below (R73). A word of no row is rejected by the name of its class (R76). -/
def decode (w : Word) : Except Unmatched Instr :=
  if fieldOP w = 0x0#4 then decodeOp0 w
  else if fieldOP w = 0x1#4 then .ok (.jp (fieldNNN w))
  else if fieldOP w = 0x2#4 then .ok (.call (fieldNNN w))
  else if fieldOP w = 0x3#4 then .ok (.seImm (fieldX w) (fieldNN w))
  else if fieldOP w = 0x4#4 then .ok (.sneImm (fieldX w) (fieldNN w))
  else if fieldOP w = 0x5#4 then
    if fieldN w = 0x0#4 then .ok (.seReg (fieldX w) (fieldY w)) else .error .op5
  else if fieldOP w = 0x6#4 then .ok (.ldImm (fieldX w) (fieldNN w))
  else if fieldOP w = 0x7#4 then .ok (.addImm (fieldX w) (fieldNN w))
  else if fieldOP w = 0x8#4 then decodeOp8 (fieldX w) (fieldY w) (fieldN w)
  else if fieldOP w = 0x9#4 then
    if fieldN w = 0x0#4 then .ok (.sneReg (fieldX w) (fieldY w)) else .error .op9
  else if fieldOP w = 0xA#4 then .ok (.ldI (fieldNNN w))
  else if fieldOP w = 0xB#4 then .ok (.jpOfs (fieldX w) (fieldNNN w))
  else if fieldOP w = 0xC#4 then .ok (.rnd (fieldX w) (fieldNN w))
  else if fieldOP w = 0xD#4 then .ok (.drw (fieldX w) (fieldY w) (fieldN w))
  else if fieldOP w = 0xE#4 then decodeOpE (fieldX w) (fieldNN w)
  else decodeOpF (fieldX w) (fieldNN w)

/-- A word from its two bytes, the first byte the high one (spec/20_memory.md R54). -/
def wordOfBytes (hi lo : Byte) : Word := hi ++ lo

/-- The byte of a word that lies at the lower address (R54). -/
def highByte (w : Word) : Byte := w.extractLsb 15 8

/-- The byte of a word that lies at the higher address (R54). -/
def lowByte (w : Word) : Byte := w.extractLsb 7 0

/-- Why a byte sequence does not begin with an instruction. -/
inductive Reject where
  /-- Fewer than the two bytes every instruction has (R70). -/
  | truncated
  /-- Its first word selects no row (R76). -/
  | unmatched (why : Unmatched)
  deriving DecidableEq, Repr

/-- Decoding any bytes: the instruction that stands first, with the bytes after it (R70). -/
def decodeBytes : List Byte → Except Reject (Instr × List Byte)
  | hi :: lo :: rest =>
    match decode (wordOfBytes hi lo) with
    | .ok i => .ok (i, rest)
    | .error why => .error (.unmatched why)
  | [_] => .error .truncated
  | [] => .error .truncated

/-- The encoder, written from the patterns of R75: a digit of the pattern as printed, a letter the operand. The `X` of
a BNNN is not encoded again, since it is the top nibble of `NNN` (R71). -/
def encode : Instr → Word
  | .cls => 0x00E0#16
  | .ret => 0x00EE#16
  | .jp nnn => 0x1#4 ++ nnn
  | .call nnn => 0x2#4 ++ nnn
  | .seImm x nn => 0x3#4 ++ x ++ nn
  | .sneImm x nn => 0x4#4 ++ x ++ nn
  | .seReg x y => 0x5#4 ++ x ++ y ++ 0x0#4
  | .ldImm x nn => 0x6#4 ++ x ++ nn
  | .addImm x nn => 0x7#4 ++ x ++ nn
  | .ldReg x y => 0x8#4 ++ x ++ y ++ 0x0#4
  | .or x y => 0x8#4 ++ x ++ y ++ 0x1#4
  | .and x y => 0x8#4 ++ x ++ y ++ 0x2#4
  | .xor x y => 0x8#4 ++ x ++ y ++ 0x3#4
  | .addReg x y => 0x8#4 ++ x ++ y ++ 0x4#4
  | .sub x y => 0x8#4 ++ x ++ y ++ 0x5#4
  | .shr x y => 0x8#4 ++ x ++ y ++ 0x6#4
  | .subn x y => 0x8#4 ++ x ++ y ++ 0x7#4
  | .shl x y => 0x8#4 ++ x ++ y ++ 0xE#4
  | .sneReg x y => 0x9#4 ++ x ++ y ++ 0x0#4
  | .ldI nnn => 0xA#4 ++ nnn
  | .jpOfs _ nnn => 0xB#4 ++ nnn
  | .rnd x nn => 0xC#4 ++ x ++ nn
  | .drw x y n => 0xD#4 ++ x ++ y ++ n
  | .skp x => 0xE#4 ++ x ++ 0x9E#8
  | .sknp x => 0xE#4 ++ x ++ 0xA1#8
  | .ldVxDt x => 0xF#4 ++ x ++ 0x07#8
  | .ldDtVx x => 0xF#4 ++ x ++ 0x15#8
  | .ldStVx x => 0xF#4 ++ x ++ 0x18#8
  | .addI x => 0xF#4 ++ x ++ 0x1E#8
  | .ldVxK x => 0xF#4 ++ x ++ 0x0A#8
  | .ldF x => 0xF#4 ++ x ++ 0x29#8
  | .ldB x => 0xF#4 ++ x ++ 0x33#8
  | .stRegs x => 0xF#4 ++ x ++ 0x55#8
  | .ldRegs x => 0xF#4 ++ x ++ 0x65#8

/-- The row of the opcode map an instruction stands in: its match and its mask (R73, R75; spec/opcode_table.json). -/
def opcodeRow : Instr → Word × Word
  | .cls => (0x00E0#16, 0xFFFF#16)
  | .ret => (0x00EE#16, 0xFFFF#16)
  | .jp _ => (0x1000#16, 0xF000#16)
  | .call _ => (0x2000#16, 0xF000#16)
  | .seImm _ _ => (0x3000#16, 0xF000#16)
  | .sneImm _ _ => (0x4000#16, 0xF000#16)
  | .seReg _ _ => (0x5000#16, 0xF00F#16)
  | .ldImm _ _ => (0x6000#16, 0xF000#16)
  | .addImm _ _ => (0x7000#16, 0xF000#16)
  | .ldReg _ _ => (0x8000#16, 0xF00F#16)
  | .or _ _ => (0x8001#16, 0xF00F#16)
  | .and _ _ => (0x8002#16, 0xF00F#16)
  | .xor _ _ => (0x8003#16, 0xF00F#16)
  | .addReg _ _ => (0x8004#16, 0xF00F#16)
  | .sub _ _ => (0x8005#16, 0xF00F#16)
  | .shr _ _ => (0x8006#16, 0xF00F#16)
  | .subn _ _ => (0x8007#16, 0xF00F#16)
  | .shl _ _ => (0x800E#16, 0xF00F#16)
  | .sneReg _ _ => (0x9000#16, 0xF00F#16)
  | .ldI _ => (0xA000#16, 0xF000#16)
  | .jpOfs _ _ => (0xB000#16, 0xF000#16)
  | .rnd _ _ => (0xC000#16, 0xF000#16)
  | .drw _ _ _ => (0xD000#16, 0xF000#16)
  | .skp _ => (0xE09E#16, 0xF0FF#16)
  | .sknp _ => (0xE0A1#16, 0xF0FF#16)
  | .ldVxDt _ => (0xF007#16, 0xF0FF#16)
  | .ldDtVx _ => (0xF015#16, 0xF0FF#16)
  | .ldStVx _ => (0xF018#16, 0xF0FF#16)
  | .addI _ => (0xF01E#16, 0xF0FF#16)
  | .ldVxK _ => (0xF00A#16, 0xF0FF#16)
  | .ldF _ => (0xF029#16, 0xF0FF#16)
  | .ldB _ => (0xF033#16, 0xF0FF#16)
  | .stRegs _ => (0xF055#16, 0xF0FF#16)
  | .ldRegs _ => (0xF065#16, 0xF0FF#16)

/-- The two bytes of an instruction in the order memory holds them (R54, R70). -/
def encodeBytes (i : Instr) : List Byte := [highByte (encode i), lowByte (encode i)]

/-- The instruction word of the opcode table's number `w`, of which the table gives `nbits` bits (bits above them 0). -/
def tableWord (nbits w : Nat) : Word := BitVec.ofNat 16 (w % 2 ^ nbits)

/-- The instruction the decoder reads from the bytes of a table word, laid out as memory holds them. -/
def decodeTableWord (nbits w : Nat) : Option Instr :=
  match decodeBytes [highByte (tableWord nbits w), lowByte (tableWord nbits w)] with
  | .ok (i, _) => some i
  | .error _ => none

end Sys2Proof
end

