-- ==== Sys2Proof/Config.lean ====
section
/-! DEFINITION. The parameters of the machine (spec/00_scope.md R7), the free value of the
random byte (spec/70_reset_and_hazards.md R239). -/

namespace Sys2Proof

/-- What an unmatched word does: `UNKNOWN_OPCODE_POLICY` (R7, spec/40_cycle.md R95). -/
inductive UnknownOpcodePolicy where
  /-- It does nothing but the fetch's PC + 2 and the timer decay. -/
  | nop
  /-- It raises UnknownOpcodeError. -/
  | fault
  deriving DecidableEq, Repr

/-- The static parameters of a run (R7). They are fixed before reset and no step changes them (log 1). -/
structure Params where
  /-- `COMPAT`: true is 1, the reference repository's behaviour; false is 0, the corrected one. -/
  compat : Bool
  /-- `UNKNOWN_OPCODE_POLICY`. -/
  unknownOpcode : UnknownOpcodePolicy
  /-- `FONTSET`, the bytes of memory 0x000 to 0x04F after reset. -/
  fontset : Vector Byte 80
  deriving DecidableEq, Repr

/-- The default `FONTSET` (spec/10_state.md R35), five bytes per glyph 0 to F.
PRESUMED (log 2): the spec marks this table as general knowledge. -/
def Config.defaultFontset : Vector Byte 80 := #v[
  0xF0, 0x90, 0x90, 0x90, 0xF0,
  0x20, 0x60, 0x20, 0x20, 0x70,
  0xF0, 0x10, 0xF0, 0x80, 0xF0,
  0xF0, 0x10, 0xF0, 0x10, 0xF0,
  0x90, 0x90, 0xF0, 0x10, 0x10,
  0xF0, 0x80, 0xF0, 0x10, 0xF0,
  0xF0, 0x80, 0xF0, 0x90, 0xF0,
  0xF0, 0x10, 0x20, 0x40, 0x40,
  0xF0, 0x90, 0xF0, 0x90, 0xF0,
  0xF0, 0x90, 0xF0, 0x10, 0xF0,
  0xF0, 0x90, 0xF0, 0x90, 0x90,
  0xE0, 0x90, 0xE0, 0x90, 0xE0,
  0xF0, 0x80, 0x80, 0x80, 0xF0,
  0xE0, 0x90, 0x90, 0x90, 0xE0,
  0xF0, 0x80, 0xF0, 0x80, 0xF0,
  0xF0, 0x80, 0xF0, 0x80, 0x80]

/-- The reference repository's parameter values (R7's column) with the default `FONTSET`.
DESIGN CHOICE (log 1): the ones `State.reset` uses. -/
def Params.reference : Params :=
  { compat := true, unknownOpcode := .nop, fontset := Config.defaultFontset }

/-- The free random byte: the n-th value the environment supplies where it has fixed none. It has no body, so nothing
can be proved of it but its range 0 to 254 (R239; spec/92_eei_decisions.md D11; log 5). -/
opaque Config.freeRnd : Nat → Fin 255

end Sys2Proof
end

