-- ==== Sys2Proof/Machine/State.lean ====
section
/-! DEFINITION. The machine's state and its reset (spec/10_state.md R20 to R36). -/

namespace Sys2Proof.Machine

/-- The five error kinds (spec/60_exceptions.md R200, R201). Each is raised into the `fault` latch of `State`. -/
inductive ErrorKind where
  /-- Fetch, sprite read, load or store outside memory; a display index or a key number out of range (R202). -/
  | boundsError
  /-- 2NNN with all 16 stack entries in use (R203). -/
  | stackOverflowError
  /-- 00EE with an empty stack (R204). -/
  | stackUnderflowError
  /-- An unmatched word under the policy FAULT (R205). -/
  | unknownOpcodeError
  /-- A ROM longer than 3584 bytes (R207). -/
  | loadError
  deriving DecidableEq, Repr

/-- Why a step stops the MODEL. There is no such reason: every error of this machine has a described effect, the `fault`
latch and a halted core (spec/60_exceptions.md R206, R209), and is a next state (log 6). So no constructor exists,
which is safe: nothing is left out by it. -/
inductive Fault where
  deriving DecidableEq, Repr

/-- Why the model answers without a meaning. -/
inductive Refusal where
  /-- Raised by an arm of `exec` whose instruction has no meaning yet; no arm is of this kind. Safe. -/
  | notModelled (mnemonic : String)
  /-- Raised by the environment operation `load` on a state that is not the one right after reset: a load at any other
  time is outside the spec (spec/70_reset_and_hazards.md R233; spec/93_implementation_defined.md U12; log 8). Safe. -/
  | loadOutsideStartup
  deriving DecidableEq, Repr

/-- The whole state (spec/10_state.md R20), the static parameters (spec/00_scope.md R7) and, last, the model's two
fields for the random input. -/
structure State where
  /-- `memory` (R30): the cells that differ from the reset contents, in canonical form (`Memory.wf`, log 3). -/
  mem : List Host.Cell
  /-- `display` (R31): the rising list of the indices of the cells that hold 1 (`Screen.wf`, log 4). -/
  display : List (Fin 2048)
  /-- `PC` (R23). -/
  pc : Word
  /-- `I` (R24). -/
  i : Word
  /-- `stack` (R25). -/
  stack : Vector Word 16
  /-- `SP` (R26): the number of return addresses on the stack, 0 to 16. -/
  sp : Fin 17
  /-- `V[0]` to `V[15]` (R21). -/
  v : Vector Byte 16
  /-- `delay_timer` (R27). -/
  dt : Byte
  /-- `sound_timer` (R28). -/
  st : Byte
  /-- `keys[0]` to `keys[15]` (R29). -/
  keys : Vector Bool 16
  /-- `fault` (R32): `none` is NONE. -/
  fault : Option ErrorKind
  /-- `COMPAT`, `UNKNOWN_OPCODE_POLICY`, `FONTSET` (spec/00_scope.md R7, log 1). -/
  params : Params
  /-- MODEL's own (log 5): the random byte the environment supplies with the present step request, `none` where it has
  fixed no value. -/
  rnd : Option (Fin 255)
  /-- MODEL's own (log 5): how many CXNN have completed; it numbers the free random bytes. -/
  draws : Nat
  deriving DecidableEq, Repr

/-- The state right after reset under the given parameters (R34; spec/70_reset_and_hazards.md R230). Memory lists nothing: an
unlisted cell reads as its reset contents. -/
def State.resetWith (p : Params) : State :=
  { mem := []
    display := []
    pc := 0x200#16
    i := 0#16
    stack := Vector.replicate 16 0#16
    sp := 0
    v := Vector.replicate 16 0#8
    dt := 0#8
    st := 0#8
    keys := Vector.replicate 16 false
    fault := none
    params := p
    rnd := none
    draws := 0 }

/-- The machine right after reset, with the reference repository's parameters (log 1). -/
def State.reset : State := State.resetWith Params.reference

end Sys2Proof.Machine
end

