-- ==== Sys2Proof/Machine/Memory.lean ====
section
/-! DEFINITION. Memory as data: a list of the cells that differ from the reset contents (spec/10_state.md R30,
spec/20_memory.md R50, R51; log 3). Bounds are checked by the access primitives of Ops.lean. -/

namespace Sys2Proof.Machine

/-- What a cell that the list does not name reads as: its reset contents (R34, R51), the fontset at 0x000 to 0x04F and 0
elsewhere. -/
def Memory.unlisted (p : Params) (a : Nat) : Byte :=
  if h : a < 80 then p.fontset[a] else 0#8

/-- The byte at an address. -/
def Memory.read (p : Params) : List Host.Cell → Nat → Byte
  | [], a => Memory.unlisted p a
  | c :: rest, a => if c.1 = a then c.2 else Memory.read p rest a

/-- The list without any entry for an address. -/
def Memory.drop (m : List Host.Cell) (a : Nat) : List Host.Cell :=
  m.filter fun c => c.1 != a

/-- The list with one entry more, before the first entry of a higher address. -/
def Memory.insert (a : Nat) (b : Byte) : List Host.Cell → List Host.Cell
  | [] => [(a, b)]
  | c :: rest => if a < c.1 then (a, b) :: c :: rest else c :: Memory.insert a b rest

/-- The list after a byte is stored: an entry equal to the reset contents is not kept. -/
def Memory.write (p : Params) (m : List Host.Cell) (a : Nat) (b : Byte) : List Host.Cell :=
  if b = Memory.unlisted p a then Memory.drop m a else Memory.insert a b (Memory.drop m a)

/-- The canonical form: addresses strictly rising, all of them cells of memory, no entry equal to what an unlisted
address reads as. -/
abbrev Memory.wf (p : Params) (m : List Host.Cell) : Prop :=
  m.Pairwise (fun c d => c.1 < d.1) ∧ ∀ c ∈ m, c.1 < 4096 ∧ c.2 ≠ Memory.unlisted p c.1

end Sys2Proof.Machine
end

