-- ==== Sys2Proof/Machine/Screen.lean ====
section
/-! DEFINITION. The display as data: the rising list of the indices of the cells that hold 1 (spec/10_state.md R31,
spec/44_display.md R172; log 4). -/

namespace Sys2Proof.Machine

/-- The cell holds 1. -/
def Screen.lit (d : List (Fin 2048)) (k : Fin 2048) : Bool := d.contains k

/-- The list with one index more, before the first higher index. -/
def Screen.insert (k : Fin 2048) : List (Fin 2048) → List (Fin 2048)
  | [] => [k]
  | j :: rest => if k < j then k :: j :: rest else j :: Screen.insert k rest

/-- The list after one cell is xored with 1. -/
def Screen.toggle (d : List (Fin 2048)) (k : Fin 2048) : List (Fin 2048) :=
  if Screen.lit d k then d.filter fun j => j != k else Screen.insert k d

/-- The canonical form: indices strictly rising. -/
abbrev Screen.wf (d : List (Fin 2048)) : Prop := d.Pairwise (fun j k => j < k)

/-- Cell number of pixel (x, y), `x + y * 64` (R31, R172). -/
def Screen.index (x y : Nat) : Nat := x + y * 64

end Sys2Proof.Machine
end

