-- ==== Sys2Proof/Machine/Ops.lean ====
section
/-! DEFINITION. The named operations over registers, memory, display and stack (the primitives of
spec/00_scope.md R10), and taking an error (spec/60_exceptions.md R206). -/

namespace Sys2Proof.Machine

/-! ### Registers -/

/-- `V[x]` (R10; spec/10_state.md R21). -/
def State.V (s : State) (x : Reg) : Byte := s.v[x.toNat]'(x.isLt)

/-- `V[x] <- b` (R10). -/
def State.setV (s : State) (x : Reg) (b : Byte) : State := { s with v := s.v.set x.toNat b x.isLt }

/-- `pc <- target` (R10). -/
def State.setPc (s : State) (target : Word) : State := { s with pc := target }

/-- `I <- w` (R10). -/
def State.setI (s : State) (w : Word) : State := { s with i := w }

/-- `DT <- b` (R10). -/
def State.setDt (s : State) (b : Byte) : State := { s with dt := b }

/-- `ST <- b` (R10). -/
def State.setSt (s : State) (b : Byte) : State := { s with st := b }

/-! ### Keys -/

/-- `keys[k]`; there is no key cell above 15 (spec/10_state.md R29). -/
def State.keyDown (s : State) (k : Nat) : Bool := if h : k < 16 then s.keys[k] else false

/-- The highest pressed key among those numbered below `n`. -/
def State.highestKeyBelow (s : State) : Nat → Option Nat
  | 0 => none
  | n + 1 => if s.keyDown n then some n else s.highestKeyBelow n

/-- The highest pressed key of all sixteen, if any is pressed (spec/45_keys_timers.md R182). -/
def State.highestKey (s : State) : Option Nat := s.highestKeyBelow 16

/-! ### The random input -/

/-- `rnd` of the present cycle: the value the environment supplied, else a free value 0 to 254
(spec/70_reset_and_hazards.md R239; log 5). -/
def State.rndInput (s : State) : Fin 255 :=
  match s.rnd with
  | some r => r
  | none => Config.freeRnd s.draws

/-- `rnd` as a byte. -/
def State.rndByte (s : State) : Byte := BitVec.ofNat 8 s.rndInput.val

/-- One CXNN more has read the random input. -/
def State.countDraw (s : State) : State := { s with draws := s.draws + 1 }

/-- The cycle is over and with it the value supplied for it (log 5). -/
def State.dropRnd (s : State) : State := { s with rnd := none }

/-! ### Errors -/

/-- The state with the latch set and nothing else changed (R206). -/
def State.withFault (s : State) (e : ErrorKind) : State := { s with fault := some e }

/-- Taking an error (R206): from the state `s`, in which nothing the cycle did remains, the `fault` latch takes the error's
kind; no PC is saved, no vector is taken, no mode changes. There is no return from it (R209): only reset clears the
latch (`Sys2Proof.Machine.resetMachine`). `exec` calls it on the state after the fetch; `finishCycle` then undoes the
fetch's PC + 2 as well. -/
def raise (e : ErrorKind) (s : State) : Host.Outcome State Fault Refusal := .next (s.withFault e)

/-- The outcome of an instruction that began in `s`: the state its statements left, or, if one of them raised, the error
taken from `s` with every write of the instruction undone (R206). -/
def commit (s : State) : Except ErrorKind State → Host.Outcome State Fault Refusal
  | .ok t => .next t
  | .error e => raise e s

/-! ### Memory -/

/-- The byte of cell `a`, with no bounds check: for `MemRead`, and for the environment's reading between cycles. -/
def State.byteAt (s : State) (a : Nat) : Byte := Memory.read s.params s.mem a

/-- The cell `a` after a store, with no bounds check: for `MemWrite` and the loader. -/
def State.setByte (s : State) (a : Nat) (b : Byte) : State := { s with mem := Memory.write s.params s.mem a b }

/-- `MemRead(a, 1)` (spec/20_memory.md R52). -/
def State.memRead (s : State) (a : Nat) : Except ErrorKind Byte :=
  if a < 4096 then .ok (s.byteAt a) else .error .boundsError

/-- `MemRead(a, 2)`, the fetch's big-endian read (R52, R54). -/
def State.memReadWord (s : State) (a : Nat) : Except ErrorKind Word :=
  if a + 1 < 4096 then .ok (wordOfBytes (s.byteAt a) (s.byteAt (a + 1))) else .error .boundsError

/-- `MemWrite(a, 1, b)` (R53). -/
def State.memWrite (s : State) (a : Nat) (b : Byte) : Except ErrorKind State :=
  if a < 4096 then .ok (s.setByte a b) else .error .boundsError

/-- `MemWrite` of each byte of a list at rising addresses from `a`, the first that is out of bounds raising. -/
def State.memWriteAll (s : State) (a : Nat) : List Byte → Except ErrorKind State
  | [] => .ok s
  | b :: rest =>
    match s.memWrite a b with
    | .ok t => t.memWriteAll (a + 1) rest
    | .error e => .error e

/-- `V[k] <- MemRead(a + k, 1)` for the registers of a list, in its order, the first read out of bounds raising. -/
def State.loadEach (s : State) (a : Nat) : List Reg → Except ErrorKind State
  | [] => .ok s
  | k :: rest =>
    match s.memRead (a + k.toNat) with
    | .ok b => (s.setV k b).loadEach a rest
    | .error e => .error e

/-! ### Display -/

/-- `display[k]` (spec/10_state.md R31). -/
def State.cell (s : State) (k : Fin 2048) : Bool := Screen.lit s.display k

/-- `display[k] <- display[k] xor 1`. -/
def State.toggleCell (s : State) (k : Fin 2048) : State := { s with display := Screen.toggle s.display k }

/-- `display[k] <- 0` for every cell. -/
def State.clearDisplay (s : State) : State := { s with display := [] }

/-! ### Stack -/

/-- `stack[k]` (spec/10_state.md R25). -/
def State.stackAt (s : State) (k : Fin 16) : Word := s.stack[k.val]

/-- Push a return address: `stack[SP] <- a; SP <- SP + 1`, raising at SP = 16 before any write
(spec/41_control_flow.md R112). -/
def State.push (s : State) (a : Word) : Except ErrorKind State :=
  if h : s.sp.val < 16 then
    .ok { s with stack := s.stack.set s.sp.val a h, sp := ⟨s.sp.val + 1, Nat.succ_lt_succ h⟩ }
  else .error .stackOverflowError

/-- Pop into PC: `SP <- SP - 1; pc <- stack[SP]`, raising at SP = 0; the entry is not cleared (R110). -/
def State.popPc (s : State) : Except ErrorKind State :=
  if s.sp.val = 0 then .error .stackUnderflowError
  else
    have bound : s.sp.val - 1 < 16 := by have := s.sp.isLt; omega
    .ok { s with sp := ⟨s.sp.val - 1, Nat.lt_trans bound (Nat.lt_succ_self 16)⟩, pc := s.stack[s.sp.val - 1] }

/-! ### Control transfer -/

/-- The skip of the following instruction, `pc <- PC + 2`, where the condition holds (R113). -/
def State.skipIf (s : State) (c : Bool) : State := if c then s.setPc (s.pc + 2#16) else s

end Sys2Proof.Machine
end

