-- ==== Sys2Proof/Machine/Flags.lean ====
section
/-! DEFINITION. Every computation of `VF`, the only flag (spec/10_state.md R22). -/

namespace Sys2Proof.Machine

/-- 1 where the condition holds, else 0. -/
def flagOf (c : Bool) : Byte := if c then 1#8 else 0#8

/-- The exact 9-bit sum of two bytes, 0 to 510 (spec/42_alu.md R136, R142). -/
def exactSum (a b : Byte) : Nat := a.toNat + b.toNat

/-- Carry of 8XY4: the exact sum exceeds 255 (R136). -/
def carryFlag (a b : Byte) : Byte := flagOf (decide (exactSum a b > 255))

/-- Flag of 8XY5 and 8XY7: strictly greater, unsigned; equal operands give 0 (R137, R139). -/
def greaterFlag (a b : Byte) : Byte := flagOf (decide (a.toNat > b.toNat))

/-- Flag of 8XY6: 0 when COMPAT = 1, else the bit shifted out, bit 0 of the pre-shift value (R138). -/
def shiftRightFlag (compat : Bool) (t : Byte) : Byte := if compat then 0#8 else flagOf (t.getLsbD 0)

/-- Flag of 8XYE: 0 when COMPAT = 1, else the bit shifted out, bit 7 of the pre-shift value (R140). -/
def shiftLeftFlag (compat : Bool) (t : Byte) : Byte := if compat then 0#8 else flagOf (t.getLsbD 7)

/-- Threshold of FX1E: 1000 (decimal) when COMPAT = 1, else 0xFFF (spec/43_index_memory.md R151). -/
def addIThreshold (compat : Bool) : Nat := if compat then 1000 else 0xFFF

/-- `V[0xF] <- b`. -/
def State.setVF (s : State) (b : Byte) : State := s.setV VF b

/-- `if c: V[0xF] <- 1`, VF otherwise left as it is: FX1E's flag clause, which has no else (R151), and the collision clause
of DXYN (spec/44_display.md R171). -/
def State.raiseVFIf (s : State) (c : Bool) : State := if c then s.setVF 1#8 else s

end Sys2Proof.Machine
end

