-- ==== Sys2Proof/Machine/Alu.lean ====
section
/-! DEFINITION. Register load and arithmetic (spec/42_alu.md R130 to R142). Statements stand in the rules' order, each reading
the registers the earlier ones left (spec/00_scope.md R11; spec/92_eei_decisions.md D4, D10). -/

namespace Sys2Proof.Machine

/-- 6XNN LD_IMM (R130). -/
def execLdImm (x : Reg) (nn : Byte) (s : State) : Host.Outcome State Fault Refusal := .next (s.setV x nn)

/-- 7XNN ADD_IMM (R131): no flag. -/
def execAddImm (x : Reg) (nn : Byte) (s : State) : Host.Outcome State Fault Refusal :=
  .next (s.setV x (s.V x + nn))

/-- 8XY0 LD_REG (R132). -/
def execLdReg (x y : Reg) (s : State) : Host.Outcome State Fault Refusal := .next (s.setV x (s.V y))

/-- 8XY1 OR (R133): no flag. -/
def execOr (x y : Reg) (s : State) : Host.Outcome State Fault Refusal := .next (s.setV x (s.V x ||| s.V y))

/-- 8XY2 AND (R134): no flag. -/
def execAnd (x y : Reg) (s : State) : Host.Outcome State Fault Refusal := .next (s.setV x (s.V x &&& s.V y))

/-- 8XY3 XOR (R135): no flag. -/
def execXor (x y : Reg) (s : State) : Host.Outcome State Fault Refusal := .next (s.setV x (s.V x ^^^ s.V y))

/-- 8XY4 ADD_REG (R136): both registers are read once, the result is written, then the carry. -/
def execAddReg (x y : Reg) (s : State) : Host.Outcome State Fault Refusal :=
  .next ((s.setV x (BitVec.ofNat 8 (exactSum (s.V x) (s.V y)))).setVF (carryFlag (s.V x) (s.V y)))

/-- `V[x] <- V[a] - V[b]` modulo 256, from the registers as they are. -/
def State.subtractInto (s : State) (x a b : Reg) : State := s.setV x (s.V a - s.V b)

/-- 8XY5 SUB (R137): the flag is written first, and the subtraction reads the registers as they then are. -/
def execSub (x y : Reg) (s : State) : Host.Outcome State Fault Refusal :=
  .next ((s.setVF (greaterFlag (s.V x) (s.V y))).subtractInto x x y)

/-- 8XY6 SHR (R138): V[Y] is copied to V[X] and shifted there, the flag is written last. -/
def execShr (x y : Reg) (s : State) : Host.Outcome State Fault Refusal :=
  .next (((s.setV x (s.V y)).setV x (s.V y >>> 1)).setVF (shiftRightFlag s.params.compat (s.V y)))

/-- 8XY7 SUBN (R139): as SUB with the operands exchanged. -/
def execSubn (x y : Reg) (s : State) : Host.Outcome State Fault Refusal :=
  .next ((s.setVF (greaterFlag (s.V y) (s.V x))).subtractInto x y x)

/-- 8XYE SHL (R140): V[Y] is copied to V[X] and shifted there, the flag is written last. -/
def execShl (x y : Reg) (s : State) : Host.Outcome State Fault Refusal :=
  .next (((s.setV x (s.V y)).setV x (s.V y <<< 1)).setVF (shiftLeftFlag s.params.compat (s.V y)))

/-- CXNN RND (R141): the immediate is added to the random input, 0 to 254 (log 5). -/
def execRnd (x : Reg) (nn : Byte) (s : State) : Host.Outcome State Fault Refusal :=
  .next ((s.setV x (s.rndByte + nn)).countDraw)

end Sys2Proof.Machine
end

