-- ==== Sys2Proof/Machine/Operands.lean ====
section
/-! DEFINITION. The operand forms: immediates, register operands, effective addresses, register lists, decimal digits,
glyph addresses, pixel coordinates, key numbers (spec/30_encoding.md R74). -/

namespace Sys2Proof.Machine

/-- `NNN` where it meets PC or I: zero-extended (R74). -/
def immAddr (nnn : Addr12) : Word := nnn.zeroExtend 16

/-- A register where it meets PC or I: zero-extended (spec/00_scope.md R9). -/
def wide (b : Byte) : Word := b.zeroExtend 16

/-- The effective address `I + k`, a natural number that is not wrapped (spec/43_index_memory.md R156;
spec/20_memory.md R57). -/
def State.effAddr (s : State) (k : Nat) : Nat := s.i.toNat + k

/-- The registers `V0` to `Vx` in rising order, the operand of FX55 and FX65 (R154, R155). -/
def regsUpTo (x : Reg) : List Reg := (List.range (x.toNat + 1)).map (BitVec.ofNat 4)

/-- The decimal digits of a byte: hundreds, tens, ones, each a number 0 to 9 in a byte (R153). -/
def decimalDigits (b : Byte) : List Byte :=
  [BitVec.ofNat 8 (b.toNat / 100), BitVec.ofNat 8 (b.toNat / 10 % 10), BitVec.ofNat 8 (b.toNat % 10)]

/-- The address of a font glyph, `b * 5`, not masked to the low nibble (R152). -/
def glyphAddr (b : Byte) : Word := BitVec.ofNat 16 (b.toNat * 5)

/-- Start column of a sprite, `V[X] mod 64` (spec/44_display.md R171). -/
def startColumn (b : Byte) : Nat := b.toNat % 64

/-- Start row of a sprite, `V[Y] mod 32` (R171). -/
def startRow (b : Byte) : Nat := b.toNat % 32

/-- Bit `j` of a sprite byte counted from the most significant one (spec/00_scope.md R8, R171). -/
def spriteBit (sprite : Byte) (j : Nat) : Bool := sprite.getLsbD (7 - j)

/-- The cell that bit `j` of sprite row `i` falls on. COMPAT = 1: not wrapped, and no cell at 2048 or more. COMPAT = 0: each
coordinate wrapped, always a cell (R171; spec/20_memory.md R63). -/
def pixelIndex (compat : Bool) (x0 y0 i j : Nat) : Option (Fin 2048) :=
  if compat then
    if h : Screen.index (x0 + j) (y0 + i) < 2048 then some ⟨Screen.index (x0 + j) (y0 + i), h⟩ else none
  else
    some ⟨Screen.index ((x0 + j) % 64) ((y0 + i) % 32), by unfold Screen.index; omega⟩

/-- The key number in a register: there is none above 15 (spec/45_keys_timers.md R180). -/
def keyNumber (b : Byte) : Except ErrorKind Nat := if b.toNat > 15 then .error .boundsError else .ok b.toNat

end Sys2Proof.Machine
end

