-- ==== Sys2Proof/Machine/ControlFlow.lean ====
section
/-! DEFINITION. Control transfer (spec/41_control_flow.md R110 to R118). Every meaning begins in the state after the
fetch, so `pc` is the address of the next instruction (spec/40_cycle.md R93). -/

namespace Sys2Proof.Machine

/-- 00EE RET (R110). -/
def execRet (s : State) : Host.Outcome State Fault Refusal := commit s s.popPc

/-- 1NNN JP (R111). -/
def execJp (nnn : Addr12) (s : State) : Host.Outcome State Fault Refusal := .next (s.setPc (immAddr nnn))

/-- 2NNN CALL (R112): the pushed address is the PC after the fetch. -/
def execCall (nnn : Addr12) (s : State) : Host.Outcome State Fault Refusal :=
  match s.push s.pc with
  | .ok t => .next (t.setPc (immAddr nnn))
  | .error e => raise e s

/-- 3XNN SE_IMM (R113). -/
def execSeImm (x : Reg) (nn : Byte) (s : State) : Host.Outcome State Fault Refusal :=
  .next (s.skipIf (s.V x == nn))

/-- 4XNN SNE_IMM (R114). -/
def execSneImm (x : Reg) (nn : Byte) (s : State) : Host.Outcome State Fault Refusal :=
  .next (s.skipIf (s.V x != nn))

/-- 5XY0 SE_REG (R115). -/
def execSeReg (x y : Reg) (s : State) : Host.Outcome State Fault Refusal :=
  .next (s.skipIf (s.V x == s.V y))

/-- 9XY0 SNE_REG (R116). -/
def execSneReg (x y : Reg) (s : State) : Host.Outcome State Fault Refusal :=
  .next (s.skipIf (s.V x != s.V y))

/-- BNNN JP_OFS (R117). COMPAT = 1: `I <- I + NNN + V[X]` modulo 65536, no jump. COMPAT = 0: `pc <- NNN + V[X]`, not masked
to 12 bits. -/
def execJpOfs (x : Reg) (nnn : Addr12) (s : State) : Host.Outcome State Fault Refusal :=
  if s.params.compat then .next (s.setI (s.i + immAddr nnn + wide (s.V x)))
  else .next (s.setPc (immAddr nnn + wide (s.V x)))

end Sys2Proof.Machine
end

