-- ==== Sys2Proof/Machine/Draw.lean ====
section
/-! DEFINITION. The display instructions (spec/44_display.md R170 to R172). -/

namespace Sys2Proof.Machine

/-- 00E0 CLS (R170). -/
def execCls (s : State) : Host.Outcome State Fault Refusal := .next s.clearDisplay

/-- One set sprite bit: VF becomes 1 if its cell holds 1, then the cell is xored with 1; an index that names no cell raises
(R171; spec/92_eei_decisions.md D13). -/
def State.drawPixel (s : State) : Option (Fin 2048) → Except ErrorKind State
  | some k => .ok ((s.raiseVFIf (s.cell k)).toggleCell k)
  | none => .error .boundsError

/-- The listed bits of one sprite row, in order; a zero bit touches nothing (R171). -/
def State.drawBits (s : State) (x0 y0 i : Nat) (sprite : Byte) : List Nat → Except ErrorKind State
  | [] => .ok s
  | j :: rest =>
    if spriteBit sprite j then
      match s.drawPixel (pixelIndex s.params.compat x0 y0 i j) with
      | .ok t => t.drawBits x0 y0 i sprite rest
      | .error e => .error e
    else s.drawBits x0 y0 i sprite rest

/-- The listed sprite rows, in order: row `i` is the byte at `I + i`, read whether or not it has a set bit (R171). -/
def State.drawRows (s : State) (x0 y0 : Nat) : List Nat → Except ErrorKind State
  | [] => .ok s
  | i :: rest =>
    match s.memRead (s.effAddr i) with
    | .ok sprite =>
      match s.drawBits x0 y0 i sprite (List.range 8) with
      | .ok t => t.drawRows x0 y0 rest
      | .error e => .error e
    | .error e => .error e

/-- DXYN DRW (R171): the coordinates are read before VF is cleared. -/
def execDrw (x y : Reg) (n : Nibble) (s : State) : Host.Outcome State Fault Refusal :=
  commit s ((s.setVF 0#8).drawRows (startColumn (s.V x)) (startRow (s.V y)) (List.range n.toNat))

end Sys2Proof.Machine
end

