-- ==== Sys2Proof/Machine/IndexMemory.lean ====
section
/-! DEFINITION. Index register and memory (spec/43_index_memory.md R150 to R156). No access changes I (R156); an access out of
bounds undoes the whole instruction (spec/60_exceptions.md R206). -/

namespace Sys2Proof.Machine

/-- ANNN LD_I (R150). -/
def execLdI (nnn : Addr12) (s : State) : Host.Outcome State Fault Refusal := .next (s.setI (immAddr nnn))

/-- FX1E ADD_I (R151): the sum wraps modulo 65536; VF is set where the new I exceeds the threshold and is otherwise left. -/
def execAddI (x : Reg) (s : State) : Host.Outcome State Fault Refusal :=
  .next ((s.setI (s.i + wide (s.V x))).raiseVFIf
    (decide ((s.i + wide (s.V x)).toNat > addIThreshold s.params.compat)))

/-- FX29 LD_F (R152). -/
def execLdF (x : Reg) (s : State) : Host.Outcome State Fault Refusal := .next (s.setI (glyphAddr (s.V x)))

/-- FX33 LD_B (R153). -/
def execLdB (x : Reg) (s : State) : Host.Outcome State Fault Refusal :=
  commit s (s.memWriteAll (s.effAddr 0) (decimalDigits (s.V x)))

/-- FX55 ST_REGS (R154). -/
def execStRegs (x : Reg) (s : State) : Host.Outcome State Fault Refusal :=
  commit s (s.memWriteAll (s.effAddr 0) ((regsUpTo x).map s.V))

/-- FX65 LD_REGS (R155). -/
def execLdRegs (x : Reg) (s : State) : Host.Outcome State Fault Refusal :=
  commit s (s.loadEach (s.effAddr 0) (regsUpTo x))

end Sys2Proof.Machine
end

