-- ==== Sys2Proof/Machine/KeysTimers.lean ====
section
/-! DEFINITION. Keys and timers (spec/45_keys_timers.md R180 to R185). The timer decay of the cycle runs after each of them
(`Sys2Proof.Machine.timerDecay`). -/

namespace Sys2Proof.Machine

/-- EX9E SKP (R180): a key number above 15 raises. -/
def execSkp (x : Reg) (s : State) : Host.Outcome State Fault Refusal :=
  match keyNumber (s.V x) with
  | .ok k => .next (s.skipIf (s.keyDown k))
  | .error e => raise e s

/-- EXA1 SKNP (R181): a key number above 15 raises. -/
def execSknp (x : Reg) (s : State) : Host.Outcome State Fault Refusal :=
  match keyNumber (s.V x) with
  | .ok k => .next (s.skipIf (!s.keyDown k))
  | .error e => raise e s

/-- FX07 LD_VX_DT (R183): DT before this cycle's decay. -/
def execLdVxDt (x : Reg) (s : State) : Host.Outcome State Fault Refusal := .next (s.setV x s.dt)

/-- FX15 LD_DT_VX (R184). -/
def execLdDtVx (x : Reg) (s : State) : Host.Outcome State Fault Refusal := .next (s.setDt (s.V x))

/-- FX18 LD_ST_VX (R185). -/
def execLdStVx (x : Reg) (s : State) : Host.Outcome State Fault Refusal := .next (s.setSt (s.V x))

/-- FX0A LD_VX_K (R182): the highest pressed key, or, with none pressed, PC back on this instruction. -/
def execLdVxK (x : Reg) (s : State) : Host.Outcome State Fault Refusal :=
  match s.highestKey with
  | some k => .next (s.setV x (BitVec.ofNat 8 k))
  | none => .next (s.setPc (s.pc - 2#16))

end Sys2Proof.Machine
end

