-- ==== Sys2Proof/Machine/Cycle.lean ====
section
/-! DEFINITION. The instruction cycle: fetch, decode, execute, timer decay, and the status it reports
(spec/40_cycle.md R90 to R99). -/

namespace Sys2Proof.Machine

/-- The fetched word, big-endian, raising when PC or PC + 1 is 4096 or more (R91). -/
def State.fetch (s : State) : Except ErrorKind Word := s.memReadWord s.pc.toNat

/-- PC moved past the fetched word (R91). -/
def State.pastFetch (s : State) : State := s.setPc (s.pc + 2#16)

/-- What an unmatched word does at the execute stage (R95): nothing, or UnknownOpcodeError, as the policy says. -/
def execUnmatched (s : State) : Host.Outcome State Fault Refusal :=
  match s.params.unknownOpcode with
  | .nop => .next s
  | .fault => raise .unknownOpcodeError s

/-- Timer decay: DT, where it is not 0, becomes one less; ST is not touched (R96). -/
def timerDecay (s : State) : State := if s.dt.toNat > 0 then s.setDt (s.dt - 1#8) else s

/-- The end of a cycle that did not raise: the timer decay, and the supplied random byte is spent (R96; log 5). -/
def endCycle (s : State) : State := (timerDecay s).dropRnd

/-- The end of the cycle that began in `s0`: where the execute stage raised, the state is `s0` again with the latch set
(spec/60_exceptions.md R206), else the decay runs. -/
def finishCycle (s0 : State) : Host.Outcome State Fault Refusal → Host.Outcome State Fault Refusal
  | .next t =>
    match t.fault with
    | none => .next (endCycle t)
    | some e => raise e s0
  | .fault r => .fault r
  | .refused r => .refused r

/-- Decode and execute of a fetched word, in the state after the fetch (R92, R93, R95). -/
def execWord (w : Word) (s : State) : Host.Outcome State Fault Refusal :=
  match decode w with
  | .ok i => exec i s
  | .error _ => execUnmatched s

/-- One cycle (R90). A halted core changes nothing (R97). -/
def cycle (s : State) : Host.Outcome State Fault Refusal :=
  match s.fault with
  | some _ => .next s
  | none =>
    match s.fetch with
    | .error e => raise e s
    | .ok w => finishCycle s (execWord w s.pastFetch)

/-- What a cycle reports to the environment: an output and no state (R94; log 10). -/
inductive Status where
  /-- The cycle completed. -/
  | ok
  /-- The cycle completed, it ran FX0A, and no key was pressed. -/
  | waitKey
  /-- The cycle raised the error and was undone. -/
  | fault (e : ErrorKind)
  /-- The core was halted by the error already and did nothing. -/
  | halted (e : ErrorKind)
  deriving DecidableEq, Repr

/-- The fetched word is an FX0A and no key is pressed (R94, spec/45_keys_timers.md R182). -/
def State.waitsForKey (s : State) : Bool :=
  match s.fetch with
  | .ok w =>
    match decode w with
    | .ok (.ldVxK _) => s.highestKey.isNone
    | _ => false
  | .error _ => false

/-- The status that the cycle begun in `s` reports (R90, R94). -/
def cycleStatus (s : State) : Status :=
  match s.fault with
  | some e => .halted e
  | none =>
    match cycle s with
    | .next t =>
      match t.fault with
      | some e => .fault e
      | none => if s.waitsForKey then .waitKey else .ok
    | .fault _ => .ok
    | .refused _ => .ok

/-- The state with an instruction word in the two bytes the next fetch reads, high byte first (R91). Where PC is above
4094 there are no such bytes, and nothing is stored. -/
def State.placeWord (s : State) (w : Word) : State :=
  if s.pc.toNat + 1 < 4096 then
    (s.setByte s.pc.toNat (highByte w)).setByte (s.pc.toNat + 1) (lowByte w)
  else s

end Sys2Proof.Machine
end

