-- ==== Sys2Proof/Machine/Step.lean ====
section
/-! DEFINITION. The step: one cycle (spec/40_cycle.md R90). -/

namespace Sys2Proof.Machine

/-- One step of the machine is one cycle (spec/00_scope.md R2, R14). -/
def step : State → Host.Outcome State Fault Refusal := fun s => cycle s

/-- The state with the opcode table's word `w` stored where the next step fetches: at PC and PC + 1. It stands for the
load of a program that holds it there (log 7). -/
def State.withFetchWord (s : State) (nbits w : Nat) : State := s.placeWord (tableWord nbits w)

end Sys2Proof.Machine
end

