-- ==== Sys2Proof/Machine/Environment.lean ====
section
/-! DEFINITION. What the environment may do between cycles (spec/70_reset_and_hazards.md R230 to R240). -/

namespace Sys2Proof.Machine

/-- `Reset` (R230): every piece of state at its reset value, whatever it was; the static parameters stay
(spec/00_scope.md R7). It is the only operation that clears the latch. -/
def resetMachine (s : State) : State := State.resetWith s.params

/-- The bytes of a list stored at rising addresses from `a`. -/
def State.copyIn (s : State) (a : Nat) : List Byte → State
  | [] => s
  | b :: rest => (s.setByte a b).copyIn (a + 1) rest

/-- `SetKeys` (R236): all sixteen cells at once. -/
def State.setKeys (s : State) (keys : Vector Bool 16) : State := { s with keys := keys }

/-- The state is the one right after reset, keys apart, which the environment may already have written: the only time a
load is permitted (R233, R236; spec/92_eei_decisions.md D26). -/
def State.atStartup (s : State) : Bool := s == (resetMachine s).setKeys s.keys

/-- The effect of `Load(rom)` (R233): an oversized ROM is rejected with LoadError and nothing else changes, any other is
copied to 0x200 and up. -/
def State.loaded (s : State) (rom : List Byte) : State :=
  if rom.length > 3584 then s.withFault .loadError else s.copyIn 0x200 rom

/-- `Load(rom)` (R233), refused by name at any time but start-up (log 8). -/
def load (rom : List Byte) (s : State) : Host.Outcome State Fault Refusal :=
  if s.atStartup then .next (s.loaded rom) else .refused .loadOutsideStartup

/-- The state with a random byte supplied for the coming cycle (R239; log 5). -/
def State.supplyRnd (s : State) (r : Fin 255) : State := { s with rnd := some r }

/-- `Step(rnd)` (R236): one cycle with the given random byte. -/
def stepWith (r : Fin 255) (s : State) : Host.Outcome State Fault Refusal := cycle (s.supplyRnd r)

/-- The environment's reading of the display: the cell of pixel (x, y) (R240; spec/44_display.md R172). -/
def readPixel (s : State) (x y : Nat) : Bool :=
  if h : Screen.index x y < 2048 then s.cell ⟨Screen.index x y, h⟩ else false

/-- The environment's reading of the sound timer (R240). -/
def readSoundTimer (s : State) : Byte := s.st

/-- The code the latch shows (spec/60_exceptions.md R201). -/
def faultCode : Option ErrorKind → Nat
  | none => 0
  | some .boundsError => 1
  | some .stackOverflowError => 2
  | some .stackUnderflowError => 3
  | some .unknownOpcodeError => 4
  | some .loadError => 5

end Sys2Proof.Machine
end

