-- ==== Sys2Proof/Safety.lean ====
section
/-! DEFINITION. The words claims are stated in: what stays unchanged, the invariant of the machine, a finished run, and a
sprite as a set of pixels. -/

namespace Sys2Proof.Safety

open Sys2Proof.Machine

/-- The pieces of the state besides the V registers (spec/10_state.md R20, spec/00_scope.md R7, log 5). -/
inductive Part where
  | memory | display | pc | index | stack | delay | sound | keys | fault | params | random
  deriving DecidableEq, Repr

/-- The piece reads the same in both states: every byte of memory, every cell, every stack entry. -/
def Part.same : Part → State → State → Prop
  | .memory, s, t => ∀ a, t.byteAt a = s.byteAt a
  | .display, s, t => ∀ k, t.cell k = s.cell k
  | .pc, s, t => t.pc = s.pc
  | .index, s, t => t.i = s.i
  | .stack, s, t => t.sp = s.sp ∧ ∀ k, t.stackAt k = s.stackAt k
  | .delay, s, t => t.dt = s.dt
  | .sound, s, t => t.st = s.st
  | .keys, s, t => ∀ k, t.keyDown k = s.keyDown k
  | .fault, s, t => t.fault = s.fault
  | .params, s, t => t.params = s.params
  | .random, s, t => t.rnd = s.rnd ∧ t.draws = s.draws

/-- From `s` to `t` nothing changed but the named pieces and the named V registers. -/
def Frame (parts : List Part) (regs : List Reg) (s t : State) : Prop :=
  (∀ p, p ∉ parts → p.same s t) ∧ ∀ r, r ∉ regs → t.V r = s.V r

/-- Every return address on the stack is one that a CALL pushed: 2 to 4096 (spec/41_control_flow.md R110, R112). -/
def StackHoldsReturns (s : State) : Prop :=
  ∀ k : Fin 16, k.val < s.sp.val → 2 ≤ (s.stackAt k).toNat ∧ (s.stackAt k).toNat ≤ 4096

/-- The invariant of the machine: memory and display in canonical form, PC at most 0x10FE (spec/10_state.md R36), return
addresses on the stack. SP ≤ 16 and the cells' ranges hold by their types. -/
def Inv (s : State) : Prop :=
  Memory.wf s.params s.mem ∧ Screen.wf s.display ∧ s.pc.toNat ≤ 0x10FE ∧ StackHoldsReturns s

/-- The core runs: no error has been latched (spec/40_cycle.md R97). -/
def Running (s : State) : Prop := s.fault = none

/-- The word at PC and PC + 1, the first byte the high one (spec/40_cycle.md R91). -/
def wordAtPc (s : State) : Word := s.byteAt s.pc.toNat ++ s.byteAt (s.pc.toNat + 1)

/-- PC is a valid fetch address and the word there is the instruction. -/
def Fetches (s : State) (i : Instr) : Prop := s.pc.toNat ≤ 4094 ∧ decode (wordAtPc s) = .ok i

/-- PC is a valid fetch address and the word there selects no row (spec/30_encoding.md R76). -/
def FetchesUnmatched (s : State) : Prop := s.pc.toNat ≤ 4094 ∧ ∃ why, decode (wordAtPc s) = .error why

/-- A program has finished normally: PC addresses a 1NNN that jumps to itself and no error is latched
(spec/70_reset_and_hazards.md R241; spec/92_eei_decisions.md D22). -/
def FinishedNormally (s : State) : Prop :=
  Running s ∧ ∃ nnn : Addr12, Fetches s (.jp nnn) ∧ nnn.toNat = s.pc.toNat

/-- The pieces, besides the V registers, that an instruction may write (the column "written by" of spec/10_state.md R20; PC
beyond the fetch's own + 2). -/
def partsWritten : Instr → List Part
  | .cls => [.display]
  | .ret => [.stack, .pc, .fault]
  | .jp _ => [.pc]
  | .call _ => [.stack, .pc, .fault]
  | .seImm _ _ | .sneImm _ _ | .seReg _ _ | .sneReg _ _ => [.pc]
  | .ldImm _ _ | .addImm _ _ | .ldReg _ _ | .or _ _ | .and _ _ | .xor _ _ | .addReg _ _ | .sub _ _ | .shr _ _
  | .subn _ _ | .shl _ _ | .ldVxDt _ => []
  | .ldI _ | .addI _ | .ldF _ => [.index]
  | .jpOfs _ _ => [.index, .pc]
  | .rnd _ _ => [.random]
  | .drw _ _ _ => [.display, .fault]
  | .skp _ | .sknp _ => [.pc, .fault]
  | .ldDtVx _ => [.delay]
  | .ldStVx _ => [.sound]
  | .ldVxK _ => [.pc]
  | .ldB _ | .stRegs _ => [.memory, .fault]
  | .ldRegs _ => [.fault]

/-- The V registers an instruction may write (the columns of spec/10_state.md R20 and R22). -/
def regsWritten : Instr → List Reg
  | .ldImm x _ | .addImm x _ | .ldReg x _ | .or x _ | .and x _ | .xor x _ | .rnd x _ | .ldVxDt x | .ldVxK x => [x]
  | .addReg x _ | .sub x _ | .shr x _ | .subn x _ | .shl x _ => [x, VF]
  | .drw _ _ _ | .addI _ => [VF]
  | .ldRegs x => regsUpTo x
  | .cls | .ret | .jp _ | .call _ | .seImm _ _ | .sneImm _ _ | .seReg _ _ | .sneReg _ _ | .ldI _ | .jpOfs _ _
  | .skp _ | .sknp _ | .ldDtVx _ | .ldStVx _ | .ldF _ | .ldB _ | .stRegs _ => []

/-- The delay timer as the instruction leaves it, before the decay of its cycle: only FX15 writes it
(spec/45_keys_timers.md R184). -/
def delayAfter (s : State) : Instr → Byte
  | .ldDtVx x => s.V x
  | _ => s.dt

/-- The sound timer after the instruction: only FX18 writes it (R185). -/
def soundAfter (s : State) : Instr → Byte
  | .ldStVx x => s.V x
  | _ => s.st

/-- One count less, and 0 from 0 (spec/40_cycle.md R96). -/
def decayed (b : Byte) : Byte := if b = 0#8 then 0#8 else b - 1#8

/-- No key is pressed. -/
def NoKey (s : State) : Prop := ∀ k, k < 16 → s.keyDown k = false

/-- Bit `j` of row `i` of the sprite at I is set (spec/44_display.md R171). -/
def SpriteBitSet (s : State) (i j : Nat) : Prop := (s.byteAt (s.i.toNat + i)).getLsbD (7 - j) = true

/-- The number the index formula of R171 gives, before any check that it is a cell: unwrapped when COMPAT = 1, each coordinate
wrapped when COMPAT = 0. -/
def pixelNumber (s : State) (x y : Reg) (i j : Nat) : Nat :=
  if s.params.compat then ((s.V x).toNat % 64 + j) + ((s.V y).toNat % 32 + i) * 64
  else ((s.V x).toNat % 64 + j) % 64 + ((s.V y).toNat % 32 + i) % 32 * 64

/-- A set bit of the `n` rows of the sprite falls on cell `k`. -/
def SpriteCovers (s : State) (x y : Reg) (n : Nibble) (k : Nat) : Prop :=
  ∃ i j, i < n.toNat ∧ j < 8 ∧ SpriteBitSet s i j ∧ pixelNumber s x y i j = k

/-- The draw raises nothing: every row byte is in memory and every set bit falls on a cell (R171, spec/60_exceptions.md
R202 (b), (c)). -/
def SpriteFits (s : State) (x y : Reg) (n : Nibble) : Prop :=
  (∀ i, i < n.toNat → s.i.toNat + i < 4096) ∧ ∀ k, SpriteCovers s x y n k → k < 2048

/-- The instruction, executed in the state, raises the error: the list of spec/60_exceptions.md R202 (b) to (g), R203, R204. -/
def Raises (s : State) : Instr → ErrorKind → Prop
  | .ret, e => e = .stackUnderflowError ∧ s.sp.val = 0
  | .call _, e => e = .stackOverflowError ∧ s.sp.val = 16
  | .drw x y n, e => e = .boundsError ∧ ¬ SpriteFits s x y n
  | .ldB _, e => e = .boundsError ∧ s.i.toNat ≥ 4094
  | .stRegs x, e => e = .boundsError ∧ s.i.toNat + x.toNat ≥ 4096
  | .ldRegs x, e => e = .boundsError ∧ s.i.toNat + x.toNat ≥ 4096
  | .skp x, e => e = .boundsError ∧ (s.V x).toNat > 15
  | .sknp x, e => e = .boundsError ∧ (s.V x).toNat > 15
  | _, _ => False

end Sys2Proof.Safety
end

