-- ==== Sys2Proof/Certificates/Slice0/Obligations.lean ====
section
/-! DEFINITION. The statements for the provers. In a statement about `exec`, `s` is the state after the fetch, so its `pc` is the
address of the next instruction (spec/40_cycle.md R93); in one about `step`, `s` is the state between two cycles. -/

open Sys2Proof Sys2Proof.Machine Sys2Proof.Safety

/-! ### Reset, invariant, cycle -/

/-- R34: what reset leaves, from every state and under every value of the parameters (fault = NONE is decision D5). -/
def Obligations.ResetLeavesTheSpecValues : Prop :=
  ∀ s : State, ∃ t, t = resetMachine s ∧
    (∀ (a : Nat) (h : a < 80), t.byteAt a = s.params.fontset[a]) ∧
    (∀ a, 80 ≤ a → a < 4096 → t.byteAt a = 0#8) ∧
    (∀ k, t.cell k = false) ∧ t.pc = 0x200#16 ∧ t.i = 0#16 ∧ (∀ k, t.stackAt k = 0#16) ∧ t.sp = 0 ∧
    (∀ r, t.V r = 0#8) ∧ t.dt = 0#8 ∧ t.st = 0#8 ∧ NoKey t ∧ t.fault = none ∧
    (∀ s' : State, s'.params = s.params → resetMachine s' = t)

/-- The invariant holds right after reset, whatever the parameters. The PC bound is R36's and the return addresses are those of
R110 and R112; the canonical forms of memory and display are the model's own (logs 3, 4), and so are the parameters that
`State.reset` has (log 1). -/
def Obligations.ResetMeetsTheInvariant : Prop :=
  Inv State.reset ∧ ∀ p, Inv (State.resetWith p)

/-- Every step keeps the invariant: PC at most 0x10FE (R36), return addresses on the stack (R110, R112), and memory and display
in the canonical forms, which are the model's own (logs 3, 4). -/
def Obligations.StepKeepsTheInvariant : Prop :=
  ∀ s t : State, Inv s → step s = .next t → Inv t

/-- A step of a running core whose bytes at PC decode to a well-formed instruction is `exec` of it in the state with PC moved
past the word, then the timer decay, the supplied random byte being spent (the latter is the model's own, log 5); where
`exec` raised, it is the state before the step with the latch set. -/
def Obligations.StepRunsTheFetchedInstruction : Prop :=
  ∀ (s : State) (i : Instr), Running s → Fetches s i → i.wf = true →
    ∃ t, exec i { s with pc := s.pc + 2#16 } = .next t ∧
      (t.fault = none → step s = .next { t with dt := decayed t.dt, rnd := none }) ∧
      (∀ e, t.fault = some e → step s = .next { s with fault := some e })

/-- R91: the fetch; what the raise leaves is decisions D5 and D6. -/
def Obligations.FetchIsBigEndianAndBoundsChecked : Prop :=
  ∀ s : State, Running s →
    (s.pc.toNat ≥ 4095 → step s = .next { s with fault := some .boundsError }) ∧
    (s.pc.toNat ≤ 4094 → ∃ w : Word,
      w.toNat = (s.byteAt s.pc.toNat).toNat * 256 + (s.byteAt (s.pc.toNat + 1)).toNat ∧ s.fetch = .ok w ∧
      s.pastFetch.pc.toNat = s.pc.toNat + 2 ∧ Frame [.pc] [] s s.pastFetch ∧
      step s = finishCycle s (execWord w s.pastFetch))

/-- R97: a halted core answers a step request with no change, and reset is the way out (decision D5). -/
def Obligations.HaltedCoreChangesNothing : Prop :=
  ∀ (s : State) (e : ErrorKind), s.fault = some e →
    step s = .next s ∧ cycleStatus s = .halted e ∧ (resetMachine s).fault = none

/-- R206: a cycle that raises leaves the state it began in, with the latch set and nothing else changed (decision D6). -/
def Obligations.FaultingCycleIsUndone : Prop :=
  ∀ (s t : State) (e : ErrorKind), Running s → step s = .next t → t.fault = some e →
    t = { s with fault := some e } ∧ cycleStatus s = .fault e

/-- R202 to R205: which errors a cycle of a running core raises, exactly; a raise writes nothing but the latch. The display
index and the key number are among them by decisions D13 and D12, and the undoing is D6. -/
def Obligations.ErrorsAreRaisedExactlyWhereListed : Prop :=
  ∀ s : State, Running s → ∃ t, step s = .next t ∧ ∀ e,
    (t.fault = some e → t = { s with fault := some e }) ∧
    (t.fault = some e ↔
      (e = .boundsError ∧ s.pc.toNat ≥ 4095) ∨
      (∃ i, Fetches s i ∧ Raises s i e) ∨
      (e = .unknownOpcodeError ∧ FetchesUnmatched s ∧ s.params.unknownOpcode = .fault))

/-- No step stops the model: every cycle and every instruction answers a next state (log 6). -/
def Obligations.EveryStepAnswersANextState : Prop :=
  (∀ (i : Instr) (s : State), ∃ t, exec i s = .next t) ∧ ∀ s : State, ∃ t, step s = .next t

/-- R95: an unmatched word, under each policy (decision D2). -/
def Obligations.UnmatchedWordFollowsThePolicy : Prop :=
  ∀ s : State, Running s → FetchesUnmatched s →
    (s.params.unknownOpcode = .nop →
      cycleStatus s = .ok ∧ ∃ t, step s = .next t ∧ t.pc = s.pc + 2#16 ∧ t.dt = decayed s.dt ∧
        Frame [.pc, .delay, .random] [] s t) ∧
    (s.params.unknownOpcode = .fault →
      step s = .next { s with fault := some .unknownOpcodeError } ∧ cycleStatus s = .fault .unknownOpcodeError)

/-- R96: the timer decay runs once at the end of every cycle that did not raise, on the value the instruction left, in no
other cycle (decision D6), and never touches the sound timer. -/
def Obligations.TimerDecayRunsOncePerCompletedCycle : Prop :=
  ∀ s : State, ∃ t, step s = .next t ∧
    (s.fault ≠ none ∨ t.fault ≠ none → t.dt = s.dt ∧ t.st = s.st) ∧
    (s.fault = none → t.fault = none → FetchesUnmatched s → t.dt = decayed s.dt ∧ t.st = s.st) ∧
    (∀ i, s.fault = none → t.fault = none → Fetches s i → t.dt = decayed (delayAfter s i) ∧ t.st = soundAfter s i)

/-- R94: the status a cycle reports (the spec's own output, decision D17). -/
def Obligations.StatusReportsTheCycle : Prop :=
  ∀ s : State, ∃ t, step s = .next t ∧
    (∀ e, s.fault = some e → cycleStatus s = .halted e) ∧
    (∀ e, s.fault = none → t.fault = some e → cycleStatus s = .fault e) ∧
    (∀ x, s.fault = none → Fetches s (.ldVxK x) → NoKey s → cycleStatus s = .waitKey) ∧
    (s.fault = none → t.fault = none → (∀ x, ¬ (Fetches s (.ldVxK x) ∧ NoKey s)) → cycleStatus s = .ok)

/-- A program that has finished normally stays finished, and only the delay timer (and the random byte supplied with the
step, log 5) can still change: the endless jump to itself of R241 (the definition of finished is decision D22). -/
def Obligations.FinishedProgramStaysFinished : Prop :=
  ∀ s : State, FinishedNormally s → ∃ t, step s = .next t ∧ FinishedNormally t ∧ t.dt = decayed s.dt ∧
    Frame [.delay, .random] [] s t

/-! ### What may be written at all -/

/-- Each instruction writes only the pieces the table of R20 lists it for. -/
def Obligations.EachInstructionWritesOnlyItsOwn : Prop :=
  ∀ (i : Instr) (s t : State), exec i s = .next t → Frame (partsWritten i) (regsWritten i) s t

/-- No step writes a key cell or a parameter (R29, R7), and a latched error stays (R36). -/
def Obligations.NoStepWritesKeysOrParameters : Prop :=
  ∀ s t : State, step s = .next t →
    t.keys = s.keys ∧ t.params = s.params ∧ (∀ e, s.fault = some e → t.fault = some e)

/-- No instruction but CXNN reads the random input (R98): another value of it gives the same next state, but for that input. -/
def Obligations.OnlyRndReadsTheRandomInput : Prop :=
  ∀ (i : Instr) (s t : State) (r : Fin 255), (∀ x nn, i ≠ .rnd x nn) → exec i s = .next t →
    exec i { s with rnd := some r } = .next { t with rnd := some r }

/-! ### Encoding -/

/-- Every well-formed instruction is decoded from its own word and bytes, every operand at every value. -/
def Obligations.DecodeOfEncodeIsTheInstruction : Prop :=
  ∀ i : Instr, i.wf = true →
    decode (encode i) = .ok i ∧ ∀ rest, decodeBytes (encodeBytes i ++ rest) = .ok (i, rest)

/-- A word that decodes is the encoding of what it decodes to, which is well-formed. -/
def Obligations.EncodeOfDecodeIsTheWord : Prop :=
  ∀ (w : Word) (i : Instr), decode w = .ok i → i.wf = true ∧ encode i = w

/-- R73: a word decodes to an instruction of a row exactly where (w and mask) is that row's match. -/
def Obligations.DecodeSelectsTheMatchingRow : Prop :=
  ∀ (w : Word) (i : Instr), (w &&& (opcodeRow i).2 = (opcodeRow i).1) ↔
    ∃ k, decode w = .ok k ∧ opcodeRow k = opcodeRow i

/-- R76: the words that select no row, by class; the conditions are on the word's number. -/
def Obligations.UnmatchedWordsAreTheSixClasses : Prop :=
  ∀ w : Word,
    (decode w = .error .op0 ↔ w.toNat / 4096 = 0 ∧ w.toNat ≠ 0x00E0 ∧ w.toNat ≠ 0x00EE) ∧
    (decode w = .error .op5 ↔ w.toNat / 4096 = 5 ∧ w.toNat % 16 ≠ 0) ∧
    (decode w = .error .op8 ↔ w.toNat / 4096 = 8 ∧ w.toNat % 16 ∈ [8, 9, 0xA, 0xB, 0xC, 0xD, 0xF]) ∧
    (decode w = .error .op9 ↔ w.toNat / 4096 = 9 ∧ w.toNat % 16 ≠ 0) ∧
    (decode w = .error .opE ↔ w.toNat / 4096 = 0xE ∧ w.toNat % 256 ∉ [0x9E, 0xA1]) ∧
    (decode w = .error .opF ↔ w.toNat / 4096 = 0xF ∧
      w.toNat % 256 ∉ [0x07, 0x0A, 0x15, 0x18, 0x1E, 0x29, 0x33, 0x55, 0x65])

/-- R75: words written out from the patterns, one or two of each family (a sanity statement). -/
def Obligations.SampleWordsDecodeAsTheMapSays : Prop :=
  decode 0x2ABC#16 = .ok (.call 0xABC) ∧ decode 0xB210#16 = .ok (.jpOfs 2 0x210) ∧
  decode 0x6A2B#16 = .ok (.ldImm 0xA 0x2B) ∧ decode 0x812E#16 = .ok (.shl 1 2) ∧
  decode 0xF333#16 = .ok (.ldB 3) ∧ decode 0xF165#16 = .ok (.ldRegs 1) ∧
  decode 0xD015#16 = .ok (.drw 0 1 5) ∧ decode 0xE3A1#16 = .ok (.sknp 3) ∧
  decode 0x01E0#16 = .error .op0 ∧ decode 0x812F#16 = .error .op8

/-- A word placed by `withFetchWord` is what the next fetch reads, and no other byte changes. -/
def Obligations.PlacedWordIsFetchedNext : Prop :=
  ∀ (s : State) (w : Nat), s.pc.toNat ≤ 4094 → w < 65536 →
    (s.withFetchWord 16 w).fetch = .ok (BitVec.ofNat 16 w) ∧
    (∀ a, a ≠ s.pc.toNat → a ≠ s.pc.toNat + 1 → (s.withFetchWord 16 w).byteAt a = s.byteAt a) ∧
    Frame [.memory] [] s (s.withFetchWord 16 w)

/-! ### Memory -/

/-- R52: `MemRead`, of one byte and of the fetch's two. -/
def Obligations.MemReadChecksItsBounds : Prop :=
  ∀ (s : State) (a : Nat),
    (a < 4096 → s.memRead a = .ok (s.byteAt a)) ∧
    (a ≥ 4096 → s.memRead a = .error .boundsError) ∧
    (a ≥ 4095 → s.memReadWord a = .error .boundsError) ∧
    (a < 4095 → ∃ w : Word, s.memReadWord a = .ok w ∧
      w.toNat = (s.byteAt a).toNat * 256 + (s.byteAt (a + 1)).toNat)

/-- R53: `MemWrite` changes exactly one cell, is seen by every later read and fetch, and is refused out of bounds. -/
def Obligations.MemWriteChangesExactlyOneCell : Prop :=
  ∀ (s : State) (a : Nat) (b : Byte),
    (a < 4096 → ∃ t, s.memWrite a b = .ok t ∧ t.memRead a = .ok b ∧
      (∀ n, n ≠ a → t.byteAt n = s.byteAt n) ∧ Frame [.memory] [] s t ∧
      (s.pc.toNat = a → a < 4095 → ∃ w : Word, t.fetch = .ok w ∧ w.toNat / 256 = b.toNat) ∧
      (s.pc.toNat + 1 = a → ∃ w : Word, t.fetch = .ok w ∧ w.toNat % 256 = b.toNat)) ∧
    (a ≥ 4096 → s.memWrite a b = .error .boundsError)

/-! ### Control transfer -/

/-- R110: 00EE; a raise is the latch with nothing else changed (decisions D5, D6; log 6). -/
def Obligations.RetPopsTheReturnAddress : Prop :=
  decode 0x00EE#16 = .ok .ret ∧ ∀ s : State,
    (∀ k : Fin 16, s.sp.val = k.val + 1 → ∃ t, exec .ret s = .next t ∧
      t.sp.val = k.val ∧ t.pc = s.stackAt k ∧ (∀ n, t.stackAt n = s.stackAt n) ∧ Frame [.pc, .stack] [] s t) ∧
    (s.sp.val = 0 → exec .ret s = .next { s with fault := some .stackUnderflowError })

/-- R111: 1NNN. -/
def Obligations.JpJumpsToItsAddress : Prop :=
  ∀ (nnn : Addr12) (s : State), decode (0x1#4 ++ nnn) = .ok (.jp nnn) ∧
    ∃ t, exec (.jp nnn) s = .next t ∧ t.pc.toNat = nnn.toNat ∧ Frame [.pc] [] s t

/-- R112: 2NNN; a raise is the latch with nothing else changed (decisions D5, D6; log 6). -/
def Obligations.CallPushesAndJumps : Prop :=
  ∀ (nnn : Addr12) (s : State), decode (0x2#4 ++ nnn) = .ok (.call nnn) ∧
    (∀ k : Fin 16, s.sp.val = k.val → ∃ t, exec (.call nnn) s = .next t ∧
      t.sp.val = k.val + 1 ∧ t.stackAt k = s.pc ∧ (∀ n, n ≠ k → t.stackAt n = s.stackAt n) ∧
      t.pc.toNat = nnn.toNat ∧ Frame [.pc, .stack] [] s t) ∧
    (s.sp.val = 16 → exec (.call nnn) s = .next { s with fault := some .stackOverflowError })

/-- A call and then a return come back: PC to the instruction after the call, SP to its value before (R110's quoted property),
and of all the state only the stack entry that the call wrote can differ. -/
def Obligations.CallThenRetComesBack : Prop :=
  ∀ (nnn : Addr12) (s : State), s.sp.val < 16 → ∃ t u, exec (.call nnn) s = .next t ∧ exec .ret t = .next u ∧
    u.pc = s.pc ∧ u.sp = s.sp ∧ (∀ n : Fin 16, n.val ≠ s.sp.val → u.stackAt n = s.stackAt n) ∧ Frame [.stack] [] s u

/-- R113, R114: the skips that compare a register with an immediate. -/
def Obligations.ImmediateSkipsTestTheirCondition : Prop :=
  ∀ (x : Reg) (nn : Byte) (s : State),
    decode (0x3#4 ++ x ++ nn) = .ok (.seImm x nn) ∧ decode (0x4#4 ++ x ++ nn) = .ok (.sneImm x nn) ∧
    (∃ t, exec (.seImm x nn) s = .next t ∧ t.pc = (if s.V x = nn then s.pc + 2#16 else s.pc) ∧ Frame [.pc] [] s t) ∧
    (∃ t, exec (.sneImm x nn) s = .next t ∧ t.pc = (if s.V x = nn then s.pc else s.pc + 2#16) ∧ Frame [.pc] [] s t)

/-- R115, R116: the skips that compare two registers. -/
def Obligations.RegisterSkipsTestTheirCondition : Prop :=
  ∀ (x y : Reg) (s : State),
    decode (0x5#4 ++ x ++ y ++ 0x0#4) = .ok (.seReg x y) ∧ decode (0x9#4 ++ x ++ y ++ 0x0#4) = .ok (.sneReg x y) ∧
    (∃ t, exec (.seReg x y) s = .next t ∧ t.pc = (if s.V x = s.V y then s.pc + 2#16 else s.pc) ∧ Frame [.pc] [] s t) ∧
    (∃ t, exec (.sneReg x y) s = .next t ∧ t.pc = (if s.V x = s.V y then s.pc else s.pc + 2#16) ∧ Frame [.pc] [] s t)

/-- R117: BNNN, under each value of COMPAT; its register is the one the top nibble of NNN names (decisions D1, D24). -/
def Obligations.JpOfsDependsOnCompat : Prop :=
  ∀ (x : Reg) (nnn : Addr12) (s : State), x.toNat = nnn.toNat / 256 →
    decode (0xB#4 ++ nnn) = .ok (.jpOfs x nnn) ∧ ∃ t, exec (.jpOfs x nnn) s = .next t ∧
      (s.params.compat = true →
        t.i.toNat = (s.i.toNat + nnn.toNat + (s.V x).toNat) % 65536 ∧ Frame [.index] [] s t) ∧
      (s.params.compat = false → t.pc.toNat = nnn.toNat + (s.V x).toNat ∧ Frame [.pc] [] s t)

/-! ### Load and arithmetic -/

/-- R130: 6XNN. -/
def Obligations.LdImmLoadsTheImmediate : Prop :=
  ∀ (x : Reg) (nn : Byte) (s : State), decode (0x6#4 ++ x ++ nn) = .ok (.ldImm x nn) ∧
    ∃ t, exec (.ldImm x nn) s = .next t ∧ t.V x = nn ∧ Frame [] [x] s t

/-- R131: 7XNN. -/
def Obligations.AddImmAddsWithoutFlag : Prop :=
  ∀ (x : Reg) (nn : Byte) (s : State), decode (0x7#4 ++ x ++ nn) = .ok (.addImm x nn) ∧
    ∃ t, exec (.addImm x nn) s = .next t ∧ (t.V x).toNat = ((s.V x).toNat + nn.toNat) % 256 ∧ Frame [] [x] s t

/-- R132: 8XY0. -/
def Obligations.LdRegCopies : Prop :=
  ∀ (x y : Reg) (s : State), decode (0x8#4 ++ x ++ y ++ 0x0#4) = .ok (.ldReg x y) ∧
    ∃ t, exec (.ldReg x y) s = .next t ∧ t.V x = s.V y ∧ Frame [] [x] s t

/-- R133, R134, R135: the three logical instructions, bit by bit; none writes VF unless VF is V[X]. -/
def Obligations.LogicWorksBitwiseWithoutFlag : Prop :=
  ∀ (x y : Reg) (s : State),
    decode (0x8#4 ++ x ++ y ++ 0x1#4) = .ok (.or x y) ∧ decode (0x8#4 ++ x ++ y ++ 0x2#4) = .ok (.and x y) ∧
    decode (0x8#4 ++ x ++ y ++ 0x3#4) = .ok (.xor x y) ∧
    (∃ t, exec (.or x y) s = .next t ∧ Frame [] [x] s t ∧
      ∀ k, k < 8 → (t.V x).getLsbD k = ((s.V x).getLsbD k || (s.V y).getLsbD k)) ∧
    (∃ t, exec (.and x y) s = .next t ∧ Frame [] [x] s t ∧
      ∀ k, k < 8 → (t.V x).getLsbD k = ((s.V x).getLsbD k && (s.V y).getLsbD k)) ∧
    (∃ t, exec (.xor x y) s = .next t ∧ Frame [] [x] s t ∧
      ∀ k, k < 8 → (t.V x).getLsbD k = ((s.V x).getLsbD k ^^ (s.V y).getLsbD k))

/-- R136: 8XY4; the carry is written last, so VF ends as the carry even where X is F. -/
def Obligations.AddRegAddsAndSetsTheCarry : Prop :=
  ∀ (x y : Reg) (s : State), decode (0x8#4 ++ x ++ y ++ 0x4#4) = .ok (.addReg x y) ∧
    ∃ t, exec (.addReg x y) s = .next t ∧
      (x ≠ VF → (t.V x).toNat = ((s.V x).toNat + (s.V y).toNat) % 256) ∧
      (t.V VF).toNat = (if (s.V x).toNat + (s.V y).toNat > 255 then 1 else 0) ∧ Frame [] [x, VF] s t

/-- R137: 8XY5; the flag `f` is written first and the subtraction then reads the registers as they are, with VF among them
(decision D4). -/
def Obligations.SubWritesTheFlagFirst : Prop :=
  ∀ (x y : Reg) (s : State), decode (0x8#4 ++ x ++ y ++ 0x5#4) = .ok (.sub x y) ∧
    ∃ t f, exec (.sub x y) s = .next t ∧ f = (if (s.V x).toNat > (s.V y).toNat then 1 else 0) ∧
      (x ≠ VF → y ≠ VF → (t.V x).toNat = ((s.V x).toNat + 256 - (s.V y).toNat) % 256 ∧ (t.V VF).toNat = f) ∧
      (x = VF → y ≠ VF → (t.V VF).toNat = (f + 256 - (s.V y).toNat) % 256) ∧
      (x ≠ VF → y = VF → (t.V x).toNat = ((s.V x).toNat + 256 - f) % 256 ∧ (t.V VF).toNat = f) ∧
      (x = VF → y = VF → (t.V VF).toNat = 0) ∧ Frame [] [x, VF] s t

/-- R139: 8XY7; as 8XY5 with the operands exchanged (decision D4). -/
def Obligations.SubnWritesTheFlagFirst : Prop :=
  ∀ (x y : Reg) (s : State), decode (0x8#4 ++ x ++ y ++ 0x7#4) = .ok (.subn x y) ∧
    ∃ t f, exec (.subn x y) s = .next t ∧ f = (if (s.V y).toNat > (s.V x).toNat then 1 else 0) ∧
      (x ≠ VF → y ≠ VF → (t.V x).toNat = ((s.V y).toNat + 256 - (s.V x).toNat) % 256 ∧ (t.V VF).toNat = f) ∧
      (x = VF → y ≠ VF → (t.V VF).toNat = ((s.V y).toNat + 256 - f) % 256) ∧
      (x ≠ VF → y = VF → (t.V x).toNat = (f + 256 - (s.V x).toNat) % 256 ∧ (t.V VF).toNat = f) ∧
      (x = VF → y = VF → (t.V VF).toNat = 0) ∧ Frame [] [x, VF] s t

/-- R138: 8XY6, under each value of COMPAT; the source is V[Y] and the flag is written last (decisions D1, D10). -/
def Obligations.ShrShiftsTheSourceRight : Prop :=
  ∀ (x y : Reg) (s : State), decode (0x8#4 ++ x ++ y ++ 0x6#4) = .ok (.shr x y) ∧
    ∃ t, exec (.shr x y) s = .next t ∧ (x ≠ VF → (t.V x).toNat = (s.V y).toNat / 2) ∧
      (t.V VF).toNat = (if s.params.compat then 0 else (s.V y).toNat % 2) ∧ Frame [] [x, VF] s t

/-- R140: 8XYE, under each value of COMPAT; the source is V[Y] and the flag is written last (decisions D1, D10; bit 7 is
the spec's general knowledge G4). -/
def Obligations.ShlShiftsTheSourceLeft : Prop :=
  ∀ (x y : Reg) (s : State), decode (0x8#4 ++ x ++ y ++ 0xE#4) = .ok (.shl x y) ∧
    ∃ t, exec (.shl x y) s = .next t ∧ (x ≠ VF → (t.V x).toNat = (s.V y).toNat * 2 % 256) ∧
      (t.V VF).toNat = (if s.params.compat then 0 else (s.V y).toNat / 128) ∧ Frame [] [x, VF] s t

/-- R141: CXNN; the byte added is 0 to 254, and it is the one the environment supplied where it supplied one (log 5). -/
def Obligations.RndAddsTheImmediateToTheRandomByte : Prop :=
  ∀ (x : Reg) (nn : Byte) (s : State), decode (0xC#4 ++ x ++ nn) = .ok (.rnd x nn) ∧
    ∃ (t : State) (r : Nat), exec (.rnd x nn) s = .next t ∧ r ≤ 254 ∧ (∀ q, s.rnd = some q → r = q.val) ∧
      (t.V x).toNat = (r + nn.toNat) % 256 ∧ Frame [.random] [x] s t

/-! ### Index register and memory -/

/-- R150: ANNN. -/
def Obligations.LdILoadsTheAddress : Prop :=
  ∀ (nnn : Addr12) (s : State), decode (0xA#4 ++ nnn) = .ok (.ldI nnn) ∧
    ∃ t, exec (.ldI nnn) s = .next t ∧ t.i.toNat = nnn.toNat ∧ Frame [.index] [] s t

/-- R151: FX1E; VF is set where the new I exceeds the threshold and is otherwise left (decisions D1, D9). -/
def Obligations.AddISetsTheFlagAboveTheThreshold : Prop :=
  ∀ (x : Reg) (s : State), decode (0xF#4 ++ x ++ 0x1E#8) = .ok (.addI x) ∧
    ∃ t, exec (.addI x) s = .next t ∧ t.i.toNat = (s.i.toNat + (s.V x).toNat) % 65536 ∧
      t.V VF = (if t.i.toNat > (if s.params.compat then 1000 else 4095) then 1#8 else s.V VF) ∧
      Frame [.index] [VF] s t

/-- R152: FX29. -/
def Obligations.LdFAddressesTheGlyph : Prop :=
  ∀ (x : Reg) (s : State), decode (0xF#4 ++ x ++ 0x29#8) = .ok (.ldF x) ∧
    ∃ t, exec (.ldF x) s = .next t ∧ t.i.toNat = (s.V x).toNat * 5 ∧ Frame [.index] [] s t

/-- R153: FX33; the address is not wrapped (decision D15), and a raise stores nothing (decisions D5, D6; log 6). -/
def Obligations.LdBStoresThreeDigits : Prop :=
  ∀ (x : Reg) (s : State), decode (0xF#4 ++ x ++ 0x33#8) = .ok (.ldB x) ∧
    (s.i.toNat ≤ 4093 → ∃ t, exec (.ldB x) s = .next t ∧
      (t.byteAt (s.effAddr 0)).toNat = (s.V x).toNat / 100 ∧
      (t.byteAt (s.effAddr 0 + 1)).toNat = (s.V x).toNat / 10 % 10 ∧
      (t.byteAt (s.effAddr 0 + 2)).toNat = (s.V x).toNat % 10 ∧
      (∀ a, a < s.effAddr 0 ∨ s.effAddr 0 + 3 ≤ a → t.byteAt a = s.byteAt a) ∧ Frame [.memory] [] s t) ∧
    (s.i.toNat ≥ 4094 → exec (.ldB x) s = .next { s with fault := some .boundsError })

/-- R154: FX55; the address is not wrapped (decision D15), and a raise stores nothing (decisions D5, D6; log 6). -/
def Obligations.StRegsStoresTheRegisters : Prop :=
  ∀ (x : Reg) (s : State), decode (0xF#4 ++ x ++ 0x55#8) = .ok (.stRegs x) ∧
    (s.i.toNat + x.toNat < 4096 → ∃ t, exec (.stRegs x) s = .next t ∧
      (∀ r : Reg, r.toNat ≤ x.toNat → t.byteAt (s.effAddr 0 + r.toNat) = s.V r) ∧
      (∀ a, a < s.effAddr 0 ∨ s.effAddr 0 + x.toNat + 1 ≤ a → t.byteAt a = s.byteAt a) ∧ Frame [.memory] [] s t) ∧
    (s.i.toNat + x.toNat ≥ 4096 → exec (.stRegs x) s = .next { s with fault := some .boundsError })

/-- R155: FX65; the address is not wrapped (decision D15), and a raise loads nothing (decisions D5, D6; log 6). -/
def Obligations.LdRegsLoadsTheRegisters : Prop :=
  ∀ (x : Reg) (s : State), decode (0xF#4 ++ x ++ 0x65#8) = .ok (.ldRegs x) ∧
    (s.i.toNat + x.toNat < 4096 → ∃ t, exec (.ldRegs x) s = .next t ∧
      (∀ r : Reg, t.V r = (if r.toNat ≤ x.toNat then s.byteAt (s.effAddr 0 + r.toNat) else s.V r)) ∧
      ∀ p : Part, p.same s t) ∧
    (s.i.toNat + x.toNat ≥ 4096 → exec (.ldRegs x) s = .next { s with fault := some .boundsError })

/-! ### Display -/

/-- R170: 00E0. -/
def Obligations.ClsClearsEveryCell : Prop :=
  decode 0x00E0#16 = .ok .cls ∧ ∀ s : State,
    ∃ t, exec .cls s = .next t ∧ (∀ k, t.cell k = false) ∧ Frame [.display] [] s t

/-- R171: DXYN as one exclusive or of a set of pixels, and its collision flag (decisions D1, D13). -/
def Obligations.DrwTogglesTheSpriteCells : Prop :=
  ∀ (x y : Reg) (n : Nibble) (s : State), decode (0xD#4 ++ x ++ y ++ n) = .ok (.drw x y n) ∧
    (SpriteFits s x y n → ∃ t, exec (.drw x y n) s = .next t ∧
      (∀ k : Fin 2048, SpriteCovers s x y n k.val → t.cell k = !s.cell k) ∧
      (∀ k : Fin 2048, ¬ SpriteCovers s x y n k.val → t.cell k = s.cell k) ∧
      ((∃ k : Fin 2048, SpriteCovers s x y n k.val ∧ s.cell k = true) → t.V VF = 1#8) ∧
      ((∀ k : Fin 2048, SpriteCovers s x y n k.val → s.cell k = false) → t.V VF = 0#8) ∧
      Frame [.display] [VF] s t) ∧
    (¬ SpriteFits s x y n → exec (.drw x y n) s = .next { s with fault := some .boundsError })

/-- Where the coordinates are not in VF, a second draw of the same sprite restores the display, and reports a collision
exactly if the first left some pixel of it lit (R171 corner case (10)). -/
def Obligations.DrawingTwiceRestoresTheDisplay : Prop :=
  ∀ (x y : Reg) (n : Nibble) (s : State), x ≠ VF → y ≠ VF → SpriteFits s x y n →
    ∃ t u, exec (.drw x y n) s = .next t ∧ exec (.drw x y n) t = .next u ∧ (∀ k, u.cell k = s.cell k) ∧
      (u.V VF = 1#8 ↔ ∃ k : Fin 2048, SpriteCovers s x y n k.val ∧ t.cell k = true)

/-! ### Keys and timers -/

/-- R180, R181: the key skips; a key number above 15 raises (decision D12). -/
def Obligations.KeySkipsTestTheKey : Prop :=
  ∀ (x : Reg) (s : State),
    decode (0xE#4 ++ x ++ 0x9E#8) = .ok (.skp x) ∧ decode (0xE#4 ++ x ++ 0xA1#8) = .ok (.sknp x) ∧
    ((s.V x).toNat ≤ 15 →
      (∃ t, exec (.skp x) s = .next t ∧ Frame [.pc] [] s t ∧
        t.pc = (if s.keyDown (s.V x).toNat = true then s.pc + 2#16 else s.pc)) ∧
      (∃ t, exec (.sknp x) s = .next t ∧ Frame [.pc] [] s t ∧
        t.pc = (if s.keyDown (s.V x).toNat = true then s.pc else s.pc + 2#16))) ∧
    ((s.V x).toNat > 15 →
      exec (.skp x) s = .next { s with fault := some .boundsError } ∧
      exec (.sknp x) s = .next { s with fault := some .boundsError })

/-- R182: FX0A takes the highest pressed key, or puts PC back on itself; a cycle that waits changes nothing but DT (and spends
the random byte supplied with it, log 5) and reports WAIT_KEY (decision D17). -/
def Obligations.LdVxKTakesTheHighestKeyOrWaits : Prop :=
  ∀ (x : Reg) (s : State), decode (0xF#4 ++ x ++ 0x0A#8) = .ok (.ldVxK x) ∧
    (∀ k, k < 16 → s.keyDown k = true → (∀ j, j < 16 → s.keyDown j = true → j ≤ k) →
      (∃ t, exec (.ldVxK x) s = .next t ∧ (t.V x).toNat = k ∧ Frame [] [x] s t) ∧
      (Running s → Fetches s (.ldVxK x) → cycleStatus s = .ok)) ∧
    (NoKey s →
      (∃ t, exec (.ldVxK x) s = .next t ∧ t.pc = s.pc - 2#16 ∧ Frame [.pc] [] s t) ∧
      (Running s → Fetches s (.ldVxK x) → cycleStatus s = .waitKey ∧
        ∃ t, step s = .next t ∧ t.dt = decayed s.dt ∧ Frame [.delay, .random] [] s t))

/-- R183, R184, R185: the timer instructions, and the timers at the end of their cycles; the sound timer then stays as it is
until another FX18. -/
def Obligations.TimerInstructionsMoveTheTimers : Prop :=
  ∀ (x : Reg) (s : State),
    decode (0xF#4 ++ x ++ 0x07#8) = .ok (.ldVxDt x) ∧ decode (0xF#4 ++ x ++ 0x15#8) = .ok (.ldDtVx x) ∧
    decode (0xF#4 ++ x ++ 0x18#8) = .ok (.ldStVx x) ∧
    (∃ t, exec (.ldVxDt x) s = .next t ∧ t.V x = s.dt ∧ Frame [] [x] s t) ∧
    (∃ t, exec (.ldDtVx x) s = .next t ∧ t.dt = s.V x ∧ Frame [.delay] [] s t) ∧
    (∃ t, exec (.ldStVx x) s = .next t ∧ t.st = s.V x ∧ Frame [.sound] [] s t) ∧
    (Running s → Fetches s (.ldVxDt x) → ∃ t, step s = .next t ∧ t.V x = s.dt ∧ t.dt = decayed s.dt) ∧
    (Running s → Fetches s (.ldDtVx x) → ∃ t, step s = .next t ∧ t.dt = decayed (s.V x)) ∧
    (Running s → Fetches s (.ldStVx x) → ∃ t, step s = .next t ∧ t.st = s.V x ∧ t.dt = decayed s.dt) ∧
    (∀ t, step s = .next t → (∀ y, ¬ Fetches s (.ldStVx y)) → t.st = s.st)

/-! ### The environment -/

/-- R233: a load right after reset (the rejection of an oversized ROM is decision D16 of 92_eei_decisions.md). -/
def Obligations.LoadCopiesTheRom : Prop :=
  ∀ (rom : List Byte) (s : State),
    (s.atStartup = true → rom.length ≤ 3584 → ∃ t, load rom s = .next t ∧
      (∀ (k : Nat) (h : k < rom.length), t.byteAt (0x200 + k) = rom[k]) ∧
      (∀ a, a < 0x200 ∨ 0x200 + rom.length ≤ a → t.byteAt a = s.byteAt a) ∧ Frame [.memory] [] s t) ∧
    (s.atStartup = true → rom.length > 3584 → load rom s = .next { s with fault := some .loadError })

/-- Any other load is refused by name (log 8; 93_implementation_defined.md U12), and no instruction or step refuses. -/
def Obligations.OnlyALateLoadIsRefused : Prop :=
  (∀ (rom : List Byte) (s : State), s.atStartup = false → load rom s = .refused .loadOutsideStartup) ∧
  ∀ (s : State) (r : Refusal), step s ≠ .refused r ∧ ∀ i, exec i s ≠ .refused r

/-- The environment's writes between cycles: SetKeys writes the key cells alone, and a random byte supplied with a step
request is the one that step's CXNN adds (R236, R239; log 5). -/
def Obligations.EnvironmentSuppliesKeysAndRandomByte : Prop :=
  (∀ (s : State) (ks : Vector Bool 16), Frame [.keys] [] s (s.setKeys ks) ∧
    ∀ (k : Nat) (h : k < 16), (s.setKeys ks).keyDown k = ks[k]) ∧
  ∀ (s : State) (x : Reg) (nn : Byte) (r : Fin 255), Running s → Fetches s (.rnd x nn) →
    ∃ t, stepWith r s = .next t ∧ (t.V x).toNat = (r.val + nn.toNat) % 256 ∧ t.rnd = none
end

