-- ==== Sys2Proof/Laws/Decode.lean ====
section
/-! SUPPORT. The bits of an assembled word, and the fields read back from it (spec/30_encoding.md R71, R72). -/

namespace Sys2Proof

/-- The bits of a word of format XNN or X. -/
theorem bit_formatXNN (op : Nibble) (x : Reg) (nn : Byte) (i : Nat) :
    BitVec.getLsbD (w := 16) (op ++ x ++ nn) i =
      if i < 8 then nn.getLsbD i else if i < 12 then x.getLsbD (i - 8) else op.getLsbD (i - 12) := by
  have h1 := BitVec.getLsbD_append (x := op ++ x) (y := nn) (i := i)
  have h2 := BitVec.getLsbD_append (x := op) (y := x) (i := i - 8)
  refine h1.trans ?_
  rw [h2]
  by_cases ha : i < 8
  · simp [ha]
  · by_cases hb : i < 12
    · have hc : i - 8 < 4 := by omega
      simp [ha, hb, hc]
    · have hc : ¬ i - 8 < 4 := by omega
      have e : i - 8 - 4 = i - 12 := by omega
      simp [ha, hb, hc, e]

/-- The bits of a word of format XY or XYN. -/
theorem bit_formatXYN (op : Nibble) (x y : Reg) (n : Nibble) (i : Nat) :
    BitVec.getLsbD (w := 16) (op ++ x ++ y ++ n) i =
      if i < 4 then n.getLsbD i else if i < 8 then y.getLsbD (i - 4)
      else if i < 12 then x.getLsbD (i - 8) else op.getLsbD (i - 12) := by
  have h1 := BitVec.getLsbD_append (x := op ++ x ++ y) (y := n) (i := i)
  have h2 := BitVec.getLsbD_append (x := op ++ x) (y := y) (i := i - 4)
  have h3 := BitVec.getLsbD_append (x := op) (y := x) (i := i - 8)
  refine h1.trans ?_
  rw [h2]
  by_cases ha : i < 4
  · simp [ha]
  · by_cases hb : i < 8
    · have hc : i - 4 < 4 := by omega
      simp [ha, hb, hc]
    · have hc : ¬ i - 4 < 4 := by omega
      have e : i - 4 - 4 = i - 8 := by omega
      simp only [ha, hb, hc, e, if_false, h3]
      by_cases hd : i < 12
      · have hd' : i - 8 < 4 := by omega
        simp [hd, hd']
      · have hd' : ¬ i - 8 < 4 := by omega
        have e' : i - 8 - 4 = i - 12 := by omega
        simp [hd, hd', e']

/-- The bits of a word of format NNN. -/
theorem bit_formatNNN (op : Nibble) (nnn : Addr12) (i : Nat) :
    BitVec.getLsbD (w := 16) (op ++ nnn) i =
      if i < 12 then nnn.getLsbD i else op.getLsbD (i - 12) :=
  BitVec.getLsbD_append (x := op) (y := nnn) (i := i)

/-! ### Fields of assembled words -/

theorem fieldOP_formatXNN (op : Nibble) (x : Reg) (nn : Byte) : fieldOP (op ++ x ++ nn) = op := by
  apply BitVec.eq_of_getLsbD_eq
  intro i hi
  have h : i < 4 := hi
  rw [fieldOP, BitVec.getLsbD_extractLsb, bit_formatXNN]
  interval_cases i <;> simp

theorem fieldX_formatXNN (op : Nibble) (x : Reg) (nn : Byte) : fieldX (op ++ x ++ nn) = x := by
  apply BitVec.eq_of_getLsbD_eq
  intro i hi
  have h : i < 4 := hi
  rw [fieldX, BitVec.getLsbD_extractLsb, bit_formatXNN]
  interval_cases i <;> simp

theorem fieldNN_formatXNN (op : Nibble) (x : Reg) (nn : Byte) : fieldNN (op ++ x ++ nn) = nn := by
  apply BitVec.eq_of_getLsbD_eq
  intro i hi
  have h : i < 8 := hi
  rw [fieldNN, BitVec.getLsbD_extractLsb, bit_formatXNN]
  interval_cases i <;> simp

theorem fieldOP_formatXYN (op : Nibble) (x y : Reg) (n : Nibble) : fieldOP (op ++ x ++ y ++ n) = op := by
  apply BitVec.eq_of_getLsbD_eq
  intro i hi
  have h : i < 4 := hi
  rw [fieldOP, BitVec.getLsbD_extractLsb, bit_formatXYN]
  interval_cases i <;> simp

theorem fieldX_formatXYN (op : Nibble) (x y : Reg) (n : Nibble) : fieldX (op ++ x ++ y ++ n) = x := by
  apply BitVec.eq_of_getLsbD_eq
  intro i hi
  have h : i < 4 := hi
  rw [fieldX, BitVec.getLsbD_extractLsb, bit_formatXYN]
  interval_cases i <;> simp

theorem fieldY_formatXYN (op : Nibble) (x y : Reg) (n : Nibble) : fieldY (op ++ x ++ y ++ n) = y := by
  apply BitVec.eq_of_getLsbD_eq
  intro i hi
  have h : i < 4 := hi
  rw [fieldY, BitVec.getLsbD_extractLsb, bit_formatXYN]
  interval_cases i <;> simp

theorem fieldN_formatXYN (op : Nibble) (x y : Reg) (n : Nibble) : fieldN (op ++ x ++ y ++ n) = n := by
  apply BitVec.eq_of_getLsbD_eq
  intro i hi
  have h : i < 4 := hi
  rw [fieldN, BitVec.getLsbD_extractLsb, bit_formatXYN]
  interval_cases i <;> simp

theorem fieldOP_formatNNN (op : Nibble) (nnn : Addr12) : fieldOP (op ++ nnn) = op := by
  apply BitVec.eq_of_getLsbD_eq
  intro i hi
  have h : i < 4 := hi
  rw [fieldOP, BitVec.getLsbD_extractLsb, bit_formatNNN]
  interval_cases i <;> simp

theorem fieldNNN_formatNNN (op : Nibble) (nnn : Addr12) : fieldNNN (op ++ nnn) = nnn := by
  apply BitVec.eq_of_getLsbD_eq
  intro i hi
  have h : i < 12 := hi
  rw [fieldNNN, BitVec.getLsbD_extractLsb, bit_formatNNN]
  interval_cases i <;> simp

/-- In a BNNN the field X is the top nibble of NNN (R71). -/
theorem fieldX_formatNNN (op : Nibble) (nnn : Addr12) : fieldX (op ++ nnn) = nnn.extractLsb 11 8 := by
  apply BitVec.eq_of_getLsbD_eq
  intro i hi
  have h : i < 4 := hi
  rw [fieldX, BitVec.getLsbD_extractLsb, bit_formatNNN, BitVec.getLsbD_extractLsb]
  interval_cases i <;> simp

/-! ### A word is its fields -/

theorem word_formatXNN (w : Word) : (fieldOP w ++ fieldX w ++ fieldNN w : Word) = w := by
  apply BitVec.eq_of_getLsbD_eq
  intro i hi
  have h : i < 16 := hi
  rw [bit_formatXNN]
  simp only [fieldOP, fieldX, fieldNN, BitVec.getLsbD_extractLsb]
  interval_cases i <;> simp

theorem word_formatXYN (w : Word) : (fieldOP w ++ fieldX w ++ fieldY w ++ fieldN w : Word) = w := by
  apply BitVec.eq_of_getLsbD_eq
  intro i hi
  have h : i < 16 := hi
  rw [bit_formatXYN]
  simp only [fieldOP, fieldX, fieldY, fieldN, BitVec.getLsbD_extractLsb]
  interval_cases i <;> simp

theorem word_formatNNN (w : Word) : (fieldOP w ++ fieldNNN w : Word) = w := by
  apply BitVec.eq_of_getLsbD_eq
  intro i hi
  have h : i < 16 := hi
  rw [bit_formatNNN]
  simp only [fieldOP, fieldNNN, BitVec.getLsbD_extractLsb]
  interval_cases i <;> simp

/-- The number of a word is its first byte times 256 plus its second (spec/20_memory.md R52, R54). -/
theorem wordOfBytes_toNat (hi lo : Byte) : (wordOfBytes hi lo).toNat = hi.toNat * 256 + lo.toNat := by
  have h1 : (wordOfBytes hi lo).toNat = hi.toNat <<< 8 ||| lo.toNat := BitVec.toNat_append hi lo
  have h2 := lo.isLt
  rw [h1, ← Nat.shiftLeft_add_eq_or_of_lt h2, Nat.shiftLeft_eq]

/-- The two bytes of a word, high byte first, make the word again (spec/20_memory.md R54). -/
theorem wordOfBytes_bytes (w : Word) : wordOfBytes (highByte w) (lowByte w) = w := by
  apply BitVec.eq_of_getLsbD_eq
  intro i hi
  have h1 := BitVec.getLsbD_append (x := highByte w) (y := lowByte w) (i := i)
  refine h1.trans ?_
  rw [highByte, lowByte, BitVec.getLsbD_extractLsb, BitVec.getLsbD_extractLsb]
  have h : i < 16 := hi
  interval_cases i <;> simp

end Sys2Proof
end

