-- ==== Sys2Proof/Laws/State.lean ====
section
/-! SUPPORT. What each update of the state does to each field and to each named read: all true by unfolding once, so that
no later proof unfolds an update. -/

namespace Sys2Proof.Machine

/-! ### setV -/

@[simp] theorem State.setV_mem (s : State) (x : Reg) (b : Byte) : (s.setV x b).mem = s.mem := rfl
@[simp] theorem State.setV_display (s : State) (x : Reg) (b : Byte) : (s.setV x b).display = s.display := rfl
@[simp] theorem State.setV_pc (s : State) (x : Reg) (b : Byte) : (s.setV x b).pc = s.pc := rfl
@[simp] theorem State.setV_i (s : State) (x : Reg) (b : Byte) : (s.setV x b).i = s.i := rfl
@[simp] theorem State.setV_stack (s : State) (x : Reg) (b : Byte) : (s.setV x b).stack = s.stack := rfl
@[simp] theorem State.setV_sp (s : State) (x : Reg) (b : Byte) : (s.setV x b).sp = s.sp := rfl
@[simp] theorem State.setV_v (s : State) (x : Reg) (b : Byte) : (s.setV x b).v = s.v.set x.toNat b x.isLt := rfl
@[simp] theorem State.setV_dt (s : State) (x : Reg) (b : Byte) : (s.setV x b).dt = s.dt := rfl
@[simp] theorem State.setV_st (s : State) (x : Reg) (b : Byte) : (s.setV x b).st = s.st := rfl
@[simp] theorem State.setV_keys (s : State) (x : Reg) (b : Byte) : (s.setV x b).keys = s.keys := rfl
@[simp] theorem State.setV_fault (s : State) (x : Reg) (b : Byte) : (s.setV x b).fault = s.fault := rfl
@[simp] theorem State.setV_params (s : State) (x : Reg) (b : Byte) : (s.setV x b).params = s.params := rfl
@[simp] theorem State.setV_rnd (s : State) (x : Reg) (b : Byte) : (s.setV x b).rnd = s.rnd := rfl
@[simp] theorem State.setV_draws (s : State) (x : Reg) (b : Byte) : (s.setV x b).draws = s.draws := rfl
@[simp] theorem State.setV_byteAt (s : State) (x : Reg) (b : Byte) (n : Nat) : (s.setV x b).byteAt n = s.byteAt n := rfl
@[simp] theorem State.setV_cell (s : State) (x : Reg) (b : Byte) (q : Fin 2048) : (s.setV x b).cell q = s.cell q := rfl
@[simp] theorem State.setV_stackAt (s : State) (x : Reg) (b : Byte) (n : Fin 16) : (s.setV x b).stackAt n = s.stackAt n := rfl
@[simp] theorem State.setV_keyDown (s : State) (x : Reg) (b : Byte) (n : Nat) : (s.setV x b).keyDown n = s.keyDown n := rfl
@[simp] theorem State.setV_rndInput (s : State) (x : Reg) (b : Byte) : (s.setV x b).rndInput = s.rndInput := rfl

/-! ### setPc -/

@[simp] theorem State.setPc_mem (s : State) (w : Word) : (s.setPc w).mem = s.mem := rfl
@[simp] theorem State.setPc_display (s : State) (w : Word) : (s.setPc w).display = s.display := rfl
@[simp] theorem State.setPc_pc (s : State) (w : Word) : (s.setPc w).pc = w := rfl
@[simp] theorem State.setPc_i (s : State) (w : Word) : (s.setPc w).i = s.i := rfl
@[simp] theorem State.setPc_stack (s : State) (w : Word) : (s.setPc w).stack = s.stack := rfl
@[simp] theorem State.setPc_sp (s : State) (w : Word) : (s.setPc w).sp = s.sp := rfl
@[simp] theorem State.setPc_v (s : State) (w : Word) : (s.setPc w).v = s.v := rfl
@[simp] theorem State.setPc_dt (s : State) (w : Word) : (s.setPc w).dt = s.dt := rfl
@[simp] theorem State.setPc_st (s : State) (w : Word) : (s.setPc w).st = s.st := rfl
@[simp] theorem State.setPc_keys (s : State) (w : Word) : (s.setPc w).keys = s.keys := rfl
@[simp] theorem State.setPc_fault (s : State) (w : Word) : (s.setPc w).fault = s.fault := rfl
@[simp] theorem State.setPc_params (s : State) (w : Word) : (s.setPc w).params = s.params := rfl
@[simp] theorem State.setPc_rnd (s : State) (w : Word) : (s.setPc w).rnd = s.rnd := rfl
@[simp] theorem State.setPc_draws (s : State) (w : Word) : (s.setPc w).draws = s.draws := rfl
@[simp] theorem State.setPc_V (s : State) (w : Word) (r : Reg) : (s.setPc w).V r = s.V r := rfl
@[simp] theorem State.setPc_byteAt (s : State) (w : Word) (n : Nat) : (s.setPc w).byteAt n = s.byteAt n := rfl
@[simp] theorem State.setPc_cell (s : State) (w : Word) (q : Fin 2048) : (s.setPc w).cell q = s.cell q := rfl
@[simp] theorem State.setPc_stackAt (s : State) (w : Word) (n : Fin 16) : (s.setPc w).stackAt n = s.stackAt n := rfl
@[simp] theorem State.setPc_keyDown (s : State) (w : Word) (n : Nat) : (s.setPc w).keyDown n = s.keyDown n := rfl
@[simp] theorem State.setPc_rndInput (s : State) (w : Word) : (s.setPc w).rndInput = s.rndInput := rfl

/-! ### setI -/

@[simp] theorem State.setI_mem (s : State) (w : Word) : (s.setI w).mem = s.mem := rfl
@[simp] theorem State.setI_display (s : State) (w : Word) : (s.setI w).display = s.display := rfl
@[simp] theorem State.setI_pc (s : State) (w : Word) : (s.setI w).pc = s.pc := rfl
@[simp] theorem State.setI_i (s : State) (w : Word) : (s.setI w).i = w := rfl
@[simp] theorem State.setI_stack (s : State) (w : Word) : (s.setI w).stack = s.stack := rfl
@[simp] theorem State.setI_sp (s : State) (w : Word) : (s.setI w).sp = s.sp := rfl
@[simp] theorem State.setI_v (s : State) (w : Word) : (s.setI w).v = s.v := rfl
@[simp] theorem State.setI_dt (s : State) (w : Word) : (s.setI w).dt = s.dt := rfl
@[simp] theorem State.setI_st (s : State) (w : Word) : (s.setI w).st = s.st := rfl
@[simp] theorem State.setI_keys (s : State) (w : Word) : (s.setI w).keys = s.keys := rfl
@[simp] theorem State.setI_fault (s : State) (w : Word) : (s.setI w).fault = s.fault := rfl
@[simp] theorem State.setI_params (s : State) (w : Word) : (s.setI w).params = s.params := rfl
@[simp] theorem State.setI_rnd (s : State) (w : Word) : (s.setI w).rnd = s.rnd := rfl
@[simp] theorem State.setI_draws (s : State) (w : Word) : (s.setI w).draws = s.draws := rfl
@[simp] theorem State.setI_V (s : State) (w : Word) (r : Reg) : (s.setI w).V r = s.V r := rfl
@[simp] theorem State.setI_byteAt (s : State) (w : Word) (n : Nat) : (s.setI w).byteAt n = s.byteAt n := rfl
@[simp] theorem State.setI_cell (s : State) (w : Word) (q : Fin 2048) : (s.setI w).cell q = s.cell q := rfl
@[simp] theorem State.setI_stackAt (s : State) (w : Word) (n : Fin 16) : (s.setI w).stackAt n = s.stackAt n := rfl
@[simp] theorem State.setI_keyDown (s : State) (w : Word) (n : Nat) : (s.setI w).keyDown n = s.keyDown n := rfl
@[simp] theorem State.setI_rndInput (s : State) (w : Word) : (s.setI w).rndInput = s.rndInput := rfl

/-! ### setDt -/

@[simp] theorem State.setDt_mem (s : State) (b : Byte) : (s.setDt b).mem = s.mem := rfl
@[simp] theorem State.setDt_display (s : State) (b : Byte) : (s.setDt b).display = s.display := rfl
@[simp] theorem State.setDt_pc (s : State) (b : Byte) : (s.setDt b).pc = s.pc := rfl
@[simp] theorem State.setDt_i (s : State) (b : Byte) : (s.setDt b).i = s.i := rfl
@[simp] theorem State.setDt_stack (s : State) (b : Byte) : (s.setDt b).stack = s.stack := rfl
@[simp] theorem State.setDt_sp (s : State) (b : Byte) : (s.setDt b).sp = s.sp := rfl
@[simp] theorem State.setDt_v (s : State) (b : Byte) : (s.setDt b).v = s.v := rfl
@[simp] theorem State.setDt_dt (s : State) (b : Byte) : (s.setDt b).dt = b := rfl
@[simp] theorem State.setDt_st (s : State) (b : Byte) : (s.setDt b).st = s.st := rfl
@[simp] theorem State.setDt_keys (s : State) (b : Byte) : (s.setDt b).keys = s.keys := rfl
@[simp] theorem State.setDt_fault (s : State) (b : Byte) : (s.setDt b).fault = s.fault := rfl
@[simp] theorem State.setDt_params (s : State) (b : Byte) : (s.setDt b).params = s.params := rfl
@[simp] theorem State.setDt_rnd (s : State) (b : Byte) : (s.setDt b).rnd = s.rnd := rfl
@[simp] theorem State.setDt_draws (s : State) (b : Byte) : (s.setDt b).draws = s.draws := rfl
@[simp] theorem State.setDt_V (s : State) (b : Byte) (r : Reg) : (s.setDt b).V r = s.V r := rfl
@[simp] theorem State.setDt_byteAt (s : State) (b : Byte) (n : Nat) : (s.setDt b).byteAt n = s.byteAt n := rfl
@[simp] theorem State.setDt_cell (s : State) (b : Byte) (q : Fin 2048) : (s.setDt b).cell q = s.cell q := rfl
@[simp] theorem State.setDt_stackAt (s : State) (b : Byte) (n : Fin 16) : (s.setDt b).stackAt n = s.stackAt n := rfl
@[simp] theorem State.setDt_keyDown (s : State) (b : Byte) (n : Nat) : (s.setDt b).keyDown n = s.keyDown n := rfl
@[simp] theorem State.setDt_rndInput (s : State) (b : Byte) : (s.setDt b).rndInput = s.rndInput := rfl

/-! ### setSt -/

@[simp] theorem State.setSt_mem (s : State) (b : Byte) : (s.setSt b).mem = s.mem := rfl
@[simp] theorem State.setSt_display (s : State) (b : Byte) : (s.setSt b).display = s.display := rfl
@[simp] theorem State.setSt_pc (s : State) (b : Byte) : (s.setSt b).pc = s.pc := rfl
@[simp] theorem State.setSt_i (s : State) (b : Byte) : (s.setSt b).i = s.i := rfl
@[simp] theorem State.setSt_stack (s : State) (b : Byte) : (s.setSt b).stack = s.stack := rfl
@[simp] theorem State.setSt_sp (s : State) (b : Byte) : (s.setSt b).sp = s.sp := rfl
@[simp] theorem State.setSt_v (s : State) (b : Byte) : (s.setSt b).v = s.v := rfl
@[simp] theorem State.setSt_dt (s : State) (b : Byte) : (s.setSt b).dt = s.dt := rfl
@[simp] theorem State.setSt_st (s : State) (b : Byte) : (s.setSt b).st = b := rfl
@[simp] theorem State.setSt_keys (s : State) (b : Byte) : (s.setSt b).keys = s.keys := rfl
@[simp] theorem State.setSt_fault (s : State) (b : Byte) : (s.setSt b).fault = s.fault := rfl
@[simp] theorem State.setSt_params (s : State) (b : Byte) : (s.setSt b).params = s.params := rfl
@[simp] theorem State.setSt_rnd (s : State) (b : Byte) : (s.setSt b).rnd = s.rnd := rfl
@[simp] theorem State.setSt_draws (s : State) (b : Byte) : (s.setSt b).draws = s.draws := rfl
@[simp] theorem State.setSt_V (s : State) (b : Byte) (r : Reg) : (s.setSt b).V r = s.V r := rfl
@[simp] theorem State.setSt_byteAt (s : State) (b : Byte) (n : Nat) : (s.setSt b).byteAt n = s.byteAt n := rfl
@[simp] theorem State.setSt_cell (s : State) (b : Byte) (q : Fin 2048) : (s.setSt b).cell q = s.cell q := rfl
@[simp] theorem State.setSt_stackAt (s : State) (b : Byte) (n : Fin 16) : (s.setSt b).stackAt n = s.stackAt n := rfl
@[simp] theorem State.setSt_keyDown (s : State) (b : Byte) (n : Nat) : (s.setSt b).keyDown n = s.keyDown n := rfl
@[simp] theorem State.setSt_rndInput (s : State) (b : Byte) : (s.setSt b).rndInput = s.rndInput := rfl

/-! ### countDraw -/

@[simp] theorem State.countDraw_mem (s : State) : s.countDraw.mem = s.mem := rfl
@[simp] theorem State.countDraw_display (s : State) : s.countDraw.display = s.display := rfl
@[simp] theorem State.countDraw_pc (s : State) : s.countDraw.pc = s.pc := rfl
@[simp] theorem State.countDraw_i (s : State) : s.countDraw.i = s.i := rfl
@[simp] theorem State.countDraw_stack (s : State) : s.countDraw.stack = s.stack := rfl
@[simp] theorem State.countDraw_sp (s : State) : s.countDraw.sp = s.sp := rfl
@[simp] theorem State.countDraw_v (s : State) : s.countDraw.v = s.v := rfl
@[simp] theorem State.countDraw_dt (s : State) : s.countDraw.dt = s.dt := rfl
@[simp] theorem State.countDraw_st (s : State) : s.countDraw.st = s.st := rfl
@[simp] theorem State.countDraw_keys (s : State) : s.countDraw.keys = s.keys := rfl
@[simp] theorem State.countDraw_fault (s : State) : s.countDraw.fault = s.fault := rfl
@[simp] theorem State.countDraw_params (s : State) : s.countDraw.params = s.params := rfl
@[simp] theorem State.countDraw_rnd (s : State) : s.countDraw.rnd = s.rnd := rfl
@[simp] theorem State.countDraw_draws (s : State) : s.countDraw.draws = s.draws + 1 := rfl
@[simp] theorem State.countDraw_V (s : State) (r : Reg) : s.countDraw.V r = s.V r := rfl
@[simp] theorem State.countDraw_byteAt (s : State) (n : Nat) : s.countDraw.byteAt n = s.byteAt n := rfl
@[simp] theorem State.countDraw_cell (s : State) (q : Fin 2048) : s.countDraw.cell q = s.cell q := rfl
@[simp] theorem State.countDraw_stackAt (s : State) (n : Fin 16) : s.countDraw.stackAt n = s.stackAt n := rfl
@[simp] theorem State.countDraw_keyDown (s : State) (n : Nat) : s.countDraw.keyDown n = s.keyDown n := rfl

/-! ### dropRnd -/

@[simp] theorem State.dropRnd_mem (s : State) : s.dropRnd.mem = s.mem := rfl
@[simp] theorem State.dropRnd_display (s : State) : s.dropRnd.display = s.display := rfl
@[simp] theorem State.dropRnd_pc (s : State) : s.dropRnd.pc = s.pc := rfl
@[simp] theorem State.dropRnd_i (s : State) : s.dropRnd.i = s.i := rfl
@[simp] theorem State.dropRnd_stack (s : State) : s.dropRnd.stack = s.stack := rfl
@[simp] theorem State.dropRnd_sp (s : State) : s.dropRnd.sp = s.sp := rfl
@[simp] theorem State.dropRnd_v (s : State) : s.dropRnd.v = s.v := rfl
@[simp] theorem State.dropRnd_dt (s : State) : s.dropRnd.dt = s.dt := rfl
@[simp] theorem State.dropRnd_st (s : State) : s.dropRnd.st = s.st := rfl
@[simp] theorem State.dropRnd_keys (s : State) : s.dropRnd.keys = s.keys := rfl
@[simp] theorem State.dropRnd_fault (s : State) : s.dropRnd.fault = s.fault := rfl
@[simp] theorem State.dropRnd_params (s : State) : s.dropRnd.params = s.params := rfl
@[simp] theorem State.dropRnd_rnd (s : State) : s.dropRnd.rnd = none := rfl
@[simp] theorem State.dropRnd_draws (s : State) : s.dropRnd.draws = s.draws := rfl
@[simp] theorem State.dropRnd_V (s : State) (r : Reg) : s.dropRnd.V r = s.V r := rfl
@[simp] theorem State.dropRnd_byteAt (s : State) (n : Nat) : s.dropRnd.byteAt n = s.byteAt n := rfl
@[simp] theorem State.dropRnd_cell (s : State) (q : Fin 2048) : s.dropRnd.cell q = s.cell q := rfl
@[simp] theorem State.dropRnd_stackAt (s : State) (n : Fin 16) : s.dropRnd.stackAt n = s.stackAt n := rfl
@[simp] theorem State.dropRnd_keyDown (s : State) (n : Nat) : s.dropRnd.keyDown n = s.keyDown n := rfl

/-! ### withFault -/

@[simp] theorem State.withFault_mem (s : State) (e : ErrorKind) : (s.withFault e).mem = s.mem := rfl
@[simp] theorem State.withFault_display (s : State) (e : ErrorKind) : (s.withFault e).display = s.display := rfl
@[simp] theorem State.withFault_pc (s : State) (e : ErrorKind) : (s.withFault e).pc = s.pc := rfl
@[simp] theorem State.withFault_i (s : State) (e : ErrorKind) : (s.withFault e).i = s.i := rfl
@[simp] theorem State.withFault_stack (s : State) (e : ErrorKind) : (s.withFault e).stack = s.stack := rfl
@[simp] theorem State.withFault_sp (s : State) (e : ErrorKind) : (s.withFault e).sp = s.sp := rfl
@[simp] theorem State.withFault_v (s : State) (e : ErrorKind) : (s.withFault e).v = s.v := rfl
@[simp] theorem State.withFault_dt (s : State) (e : ErrorKind) : (s.withFault e).dt = s.dt := rfl
@[simp] theorem State.withFault_st (s : State) (e : ErrorKind) : (s.withFault e).st = s.st := rfl
@[simp] theorem State.withFault_keys (s : State) (e : ErrorKind) : (s.withFault e).keys = s.keys := rfl
@[simp] theorem State.withFault_fault (s : State) (e : ErrorKind) : (s.withFault e).fault = some e := rfl
@[simp] theorem State.withFault_params (s : State) (e : ErrorKind) : (s.withFault e).params = s.params := rfl
@[simp] theorem State.withFault_rnd (s : State) (e : ErrorKind) : (s.withFault e).rnd = s.rnd := rfl
@[simp] theorem State.withFault_draws (s : State) (e : ErrorKind) : (s.withFault e).draws = s.draws := rfl
@[simp] theorem State.withFault_V (s : State) (e : ErrorKind) (r : Reg) : (s.withFault e).V r = s.V r := rfl
@[simp] theorem State.withFault_byteAt (s : State) (e : ErrorKind) (n : Nat) : (s.withFault e).byteAt n = s.byteAt n := rfl
@[simp] theorem State.withFault_cell (s : State) (e : ErrorKind) (q : Fin 2048) : (s.withFault e).cell q = s.cell q := rfl
@[simp] theorem State.withFault_stackAt (s : State) (e : ErrorKind) (n : Fin 16) : (s.withFault e).stackAt n = s.stackAt n := rfl
@[simp] theorem State.withFault_keyDown (s : State) (e : ErrorKind) (n : Nat) : (s.withFault e).keyDown n = s.keyDown n := rfl
@[simp] theorem State.withFault_rndInput (s : State) (e : ErrorKind) : (s.withFault e).rndInput = s.rndInput := rfl

/-! ### setByte -/

@[simp] theorem State.setByte_mem (s : State) (a : Nat) (b : Byte) : (s.setByte a b).mem = Memory.write s.params s.mem a b := rfl
@[simp] theorem State.setByte_display (s : State) (a : Nat) (b : Byte) : (s.setByte a b).display = s.display := rfl
@[simp] theorem State.setByte_pc (s : State) (a : Nat) (b : Byte) : (s.setByte a b).pc = s.pc := rfl
@[simp] theorem State.setByte_i (s : State) (a : Nat) (b : Byte) : (s.setByte a b).i = s.i := rfl
@[simp] theorem State.setByte_stack (s : State) (a : Nat) (b : Byte) : (s.setByte a b).stack = s.stack := rfl
@[simp] theorem State.setByte_sp (s : State) (a : Nat) (b : Byte) : (s.setByte a b).sp = s.sp := rfl
@[simp] theorem State.setByte_v (s : State) (a : Nat) (b : Byte) : (s.setByte a b).v = s.v := rfl
@[simp] theorem State.setByte_dt (s : State) (a : Nat) (b : Byte) : (s.setByte a b).dt = s.dt := rfl
@[simp] theorem State.setByte_st (s : State) (a : Nat) (b : Byte) : (s.setByte a b).st = s.st := rfl
@[simp] theorem State.setByte_keys (s : State) (a : Nat) (b : Byte) : (s.setByte a b).keys = s.keys := rfl
@[simp] theorem State.setByte_fault (s : State) (a : Nat) (b : Byte) : (s.setByte a b).fault = s.fault := rfl
@[simp] theorem State.setByte_params (s : State) (a : Nat) (b : Byte) : (s.setByte a b).params = s.params := rfl
@[simp] theorem State.setByte_rnd (s : State) (a : Nat) (b : Byte) : (s.setByte a b).rnd = s.rnd := rfl
@[simp] theorem State.setByte_draws (s : State) (a : Nat) (b : Byte) : (s.setByte a b).draws = s.draws := rfl
@[simp] theorem State.setByte_V (s : State) (a : Nat) (b : Byte) (r : Reg) : (s.setByte a b).V r = s.V r := rfl
@[simp] theorem State.setByte_cell (s : State) (a : Nat) (b : Byte) (q : Fin 2048) : (s.setByte a b).cell q = s.cell q := rfl
@[simp] theorem State.setByte_stackAt (s : State) (a : Nat) (b : Byte) (n : Fin 16) : (s.setByte a b).stackAt n = s.stackAt n := rfl
@[simp] theorem State.setByte_keyDown (s : State) (a : Nat) (b : Byte) (n : Nat) : (s.setByte a b).keyDown n = s.keyDown n := rfl
@[simp] theorem State.setByte_rndInput (s : State) (a : Nat) (b : Byte) : (s.setByte a b).rndInput = s.rndInput := rfl

/-! ### toggleCell -/

@[simp] theorem State.toggleCell_mem (s : State) (k : Fin 2048) : (s.toggleCell k).mem = s.mem := rfl
@[simp] theorem State.toggleCell_display (s : State) (k : Fin 2048) : (s.toggleCell k).display = Screen.toggle s.display k := rfl
@[simp] theorem State.toggleCell_pc (s : State) (k : Fin 2048) : (s.toggleCell k).pc = s.pc := rfl
@[simp] theorem State.toggleCell_i (s : State) (k : Fin 2048) : (s.toggleCell k).i = s.i := rfl
@[simp] theorem State.toggleCell_stack (s : State) (k : Fin 2048) : (s.toggleCell k).stack = s.stack := rfl
@[simp] theorem State.toggleCell_sp (s : State) (k : Fin 2048) : (s.toggleCell k).sp = s.sp := rfl
@[simp] theorem State.toggleCell_v (s : State) (k : Fin 2048) : (s.toggleCell k).v = s.v := rfl
@[simp] theorem State.toggleCell_dt (s : State) (k : Fin 2048) : (s.toggleCell k).dt = s.dt := rfl
@[simp] theorem State.toggleCell_st (s : State) (k : Fin 2048) : (s.toggleCell k).st = s.st := rfl
@[simp] theorem State.toggleCell_keys (s : State) (k : Fin 2048) : (s.toggleCell k).keys = s.keys := rfl
@[simp] theorem State.toggleCell_fault (s : State) (k : Fin 2048) : (s.toggleCell k).fault = s.fault := rfl
@[simp] theorem State.toggleCell_params (s : State) (k : Fin 2048) : (s.toggleCell k).params = s.params := rfl
@[simp] theorem State.toggleCell_rnd (s : State) (k : Fin 2048) : (s.toggleCell k).rnd = s.rnd := rfl
@[simp] theorem State.toggleCell_draws (s : State) (k : Fin 2048) : (s.toggleCell k).draws = s.draws := rfl
@[simp] theorem State.toggleCell_V (s : State) (k : Fin 2048) (r : Reg) : (s.toggleCell k).V r = s.V r := rfl
@[simp] theorem State.toggleCell_byteAt (s : State) (k : Fin 2048) (n : Nat) : (s.toggleCell k).byteAt n = s.byteAt n := rfl
@[simp] theorem State.toggleCell_stackAt (s : State) (k : Fin 2048) (n : Fin 16) : (s.toggleCell k).stackAt n = s.stackAt n := rfl
@[simp] theorem State.toggleCell_keyDown (s : State) (k : Fin 2048) (n : Nat) : (s.toggleCell k).keyDown n = s.keyDown n := rfl
@[simp] theorem State.toggleCell_rndInput (s : State) (k : Fin 2048) : (s.toggleCell k).rndInput = s.rndInput := rfl

/-! ### clearDisplay -/

@[simp] theorem State.clearDisplay_mem (s : State) : s.clearDisplay.mem = s.mem := rfl
@[simp] theorem State.clearDisplay_display (s : State) : s.clearDisplay.display = [] := rfl
@[simp] theorem State.clearDisplay_pc (s : State) : s.clearDisplay.pc = s.pc := rfl
@[simp] theorem State.clearDisplay_i (s : State) : s.clearDisplay.i = s.i := rfl
@[simp] theorem State.clearDisplay_stack (s : State) : s.clearDisplay.stack = s.stack := rfl
@[simp] theorem State.clearDisplay_sp (s : State) : s.clearDisplay.sp = s.sp := rfl
@[simp] theorem State.clearDisplay_v (s : State) : s.clearDisplay.v = s.v := rfl
@[simp] theorem State.clearDisplay_dt (s : State) : s.clearDisplay.dt = s.dt := rfl
@[simp] theorem State.clearDisplay_st (s : State) : s.clearDisplay.st = s.st := rfl
@[simp] theorem State.clearDisplay_keys (s : State) : s.clearDisplay.keys = s.keys := rfl
@[simp] theorem State.clearDisplay_fault (s : State) : s.clearDisplay.fault = s.fault := rfl
@[simp] theorem State.clearDisplay_params (s : State) : s.clearDisplay.params = s.params := rfl
@[simp] theorem State.clearDisplay_rnd (s : State) : s.clearDisplay.rnd = s.rnd := rfl
@[simp] theorem State.clearDisplay_draws (s : State) : s.clearDisplay.draws = s.draws := rfl
@[simp] theorem State.clearDisplay_V (s : State) (r : Reg) : s.clearDisplay.V r = s.V r := rfl
@[simp] theorem State.clearDisplay_byteAt (s : State) (n : Nat) : s.clearDisplay.byteAt n = s.byteAt n := rfl
@[simp] theorem State.clearDisplay_stackAt (s : State) (n : Fin 16) : s.clearDisplay.stackAt n = s.stackAt n := rfl
@[simp] theorem State.clearDisplay_keyDown (s : State) (n : Nat) : s.clearDisplay.keyDown n = s.keyDown n := rfl
@[simp] theorem State.clearDisplay_rndInput (s : State) : s.clearDisplay.rndInput = s.rndInput := rfl

/-! ### setKeys -/

@[simp] theorem State.setKeys_mem (s : State) (ks : Vector Bool 16) : (s.setKeys ks).mem = s.mem := rfl
@[simp] theorem State.setKeys_display (s : State) (ks : Vector Bool 16) : (s.setKeys ks).display = s.display := rfl
@[simp] theorem State.setKeys_pc (s : State) (ks : Vector Bool 16) : (s.setKeys ks).pc = s.pc := rfl
@[simp] theorem State.setKeys_i (s : State) (ks : Vector Bool 16) : (s.setKeys ks).i = s.i := rfl
@[simp] theorem State.setKeys_stack (s : State) (ks : Vector Bool 16) : (s.setKeys ks).stack = s.stack := rfl
@[simp] theorem State.setKeys_sp (s : State) (ks : Vector Bool 16) : (s.setKeys ks).sp = s.sp := rfl
@[simp] theorem State.setKeys_v (s : State) (ks : Vector Bool 16) : (s.setKeys ks).v = s.v := rfl
@[simp] theorem State.setKeys_dt (s : State) (ks : Vector Bool 16) : (s.setKeys ks).dt = s.dt := rfl
@[simp] theorem State.setKeys_st (s : State) (ks : Vector Bool 16) : (s.setKeys ks).st = s.st := rfl
@[simp] theorem State.setKeys_keys (s : State) (ks : Vector Bool 16) : (s.setKeys ks).keys = ks := rfl
@[simp] theorem State.setKeys_fault (s : State) (ks : Vector Bool 16) : (s.setKeys ks).fault = s.fault := rfl
@[simp] theorem State.setKeys_params (s : State) (ks : Vector Bool 16) : (s.setKeys ks).params = s.params := rfl
@[simp] theorem State.setKeys_rnd (s : State) (ks : Vector Bool 16) : (s.setKeys ks).rnd = s.rnd := rfl
@[simp] theorem State.setKeys_draws (s : State) (ks : Vector Bool 16) : (s.setKeys ks).draws = s.draws := rfl
@[simp] theorem State.setKeys_V (s : State) (ks : Vector Bool 16) (r : Reg) : (s.setKeys ks).V r = s.V r := rfl
@[simp] theorem State.setKeys_byteAt (s : State) (ks : Vector Bool 16) (n : Nat) : (s.setKeys ks).byteAt n = s.byteAt n := rfl
@[simp] theorem State.setKeys_cell (s : State) (ks : Vector Bool 16) (q : Fin 2048) : (s.setKeys ks).cell q = s.cell q := rfl
@[simp] theorem State.setKeys_stackAt (s : State) (ks : Vector Bool 16) (n : Fin 16) : (s.setKeys ks).stackAt n = s.stackAt n := rfl
@[simp] theorem State.setKeys_rndInput (s : State) (ks : Vector Bool 16) : (s.setKeys ks).rndInput = s.rndInput := rfl

/-! ### supplyRnd -/

@[simp] theorem State.supplyRnd_mem (s : State) (z : Fin 255) : (s.supplyRnd z).mem = s.mem := rfl
@[simp] theorem State.supplyRnd_display (s : State) (z : Fin 255) : (s.supplyRnd z).display = s.display := rfl
@[simp] theorem State.supplyRnd_pc (s : State) (z : Fin 255) : (s.supplyRnd z).pc = s.pc := rfl
@[simp] theorem State.supplyRnd_i (s : State) (z : Fin 255) : (s.supplyRnd z).i = s.i := rfl
@[simp] theorem State.supplyRnd_stack (s : State) (z : Fin 255) : (s.supplyRnd z).stack = s.stack := rfl
@[simp] theorem State.supplyRnd_sp (s : State) (z : Fin 255) : (s.supplyRnd z).sp = s.sp := rfl
@[simp] theorem State.supplyRnd_v (s : State) (z : Fin 255) : (s.supplyRnd z).v = s.v := rfl
@[simp] theorem State.supplyRnd_dt (s : State) (z : Fin 255) : (s.supplyRnd z).dt = s.dt := rfl
@[simp] theorem State.supplyRnd_st (s : State) (z : Fin 255) : (s.supplyRnd z).st = s.st := rfl
@[simp] theorem State.supplyRnd_keys (s : State) (z : Fin 255) : (s.supplyRnd z).keys = s.keys := rfl
@[simp] theorem State.supplyRnd_fault (s : State) (z : Fin 255) : (s.supplyRnd z).fault = s.fault := rfl
@[simp] theorem State.supplyRnd_params (s : State) (z : Fin 255) : (s.supplyRnd z).params = s.params := rfl
@[simp] theorem State.supplyRnd_rnd (s : State) (z : Fin 255) : (s.supplyRnd z).rnd = some z := rfl
@[simp] theorem State.supplyRnd_draws (s : State) (z : Fin 255) : (s.supplyRnd z).draws = s.draws := rfl
@[simp] theorem State.supplyRnd_V (s : State) (z : Fin 255) (r : Reg) : (s.supplyRnd z).V r = s.V r := rfl
@[simp] theorem State.supplyRnd_byteAt (s : State) (z : Fin 255) (n : Nat) : (s.supplyRnd z).byteAt n = s.byteAt n := rfl
@[simp] theorem State.supplyRnd_cell (s : State) (z : Fin 255) (q : Fin 2048) : (s.supplyRnd z).cell q = s.cell q := rfl
@[simp] theorem State.supplyRnd_stackAt (s : State) (z : Fin 255) (n : Fin 16) : (s.supplyRnd z).stackAt n = s.stackAt n := rfl
@[simp] theorem State.supplyRnd_keyDown (s : State) (z : Fin 255) (n : Nat) : (s.supplyRnd z).keyDown n = s.keyDown n := rfl

/-! ### setVF -/

@[simp] theorem State.setVF_mem (s : State) (b : Byte) : (s.setVF b).mem = s.mem := rfl
@[simp] theorem State.setVF_display (s : State) (b : Byte) : (s.setVF b).display = s.display := rfl
@[simp] theorem State.setVF_pc (s : State) (b : Byte) : (s.setVF b).pc = s.pc := rfl
@[simp] theorem State.setVF_i (s : State) (b : Byte) : (s.setVF b).i = s.i := rfl
@[simp] theorem State.setVF_stack (s : State) (b : Byte) : (s.setVF b).stack = s.stack := rfl
@[simp] theorem State.setVF_sp (s : State) (b : Byte) : (s.setVF b).sp = s.sp := rfl
@[simp] theorem State.setVF_dt (s : State) (b : Byte) : (s.setVF b).dt = s.dt := rfl
@[simp] theorem State.setVF_st (s : State) (b : Byte) : (s.setVF b).st = s.st := rfl
@[simp] theorem State.setVF_keys (s : State) (b : Byte) : (s.setVF b).keys = s.keys := rfl
@[simp] theorem State.setVF_fault (s : State) (b : Byte) : (s.setVF b).fault = s.fault := rfl
@[simp] theorem State.setVF_params (s : State) (b : Byte) : (s.setVF b).params = s.params := rfl
@[simp] theorem State.setVF_rnd (s : State) (b : Byte) : (s.setVF b).rnd = s.rnd := rfl
@[simp] theorem State.setVF_draws (s : State) (b : Byte) : (s.setVF b).draws = s.draws := rfl
@[simp] theorem State.setVF_byteAt (s : State) (b : Byte) (n : Nat) : (s.setVF b).byteAt n = s.byteAt n := rfl
@[simp] theorem State.setVF_cell (s : State) (b : Byte) (q : Fin 2048) : (s.setVF b).cell q = s.cell q := rfl
@[simp] theorem State.setVF_stackAt (s : State) (b : Byte) (n : Fin 16) : (s.setVF b).stackAt n = s.stackAt n := rfl
@[simp] theorem State.setVF_keyDown (s : State) (b : Byte) (n : Nat) : (s.setVF b).keyDown n = s.keyDown n := rfl

/-! ### skipIf, raiseVFIf, timerDecay -/

@[simp] theorem State.skipIf_mem (s : State) (c : Bool) : (s.skipIf c).mem = s.mem := by
  unfold State.skipIf; split <;> rfl
@[simp] theorem State.skipIf_display (s : State) (c : Bool) : (s.skipIf c).display = s.display := by
  unfold State.skipIf; split <;> rfl
theorem State.skipIf_pc (s : State) (c : Bool) : (s.skipIf c).pc = if c then s.pc + 2#16 else s.pc := by
  unfold State.skipIf; split <;> rfl
@[simp] theorem State.skipIf_i (s : State) (c : Bool) : (s.skipIf c).i = s.i := by
  unfold State.skipIf; split <;> rfl
@[simp] theorem State.skipIf_stack (s : State) (c : Bool) : (s.skipIf c).stack = s.stack := by
  unfold State.skipIf; split <;> rfl
@[simp] theorem State.skipIf_sp (s : State) (c : Bool) : (s.skipIf c).sp = s.sp := by
  unfold State.skipIf; split <;> rfl
@[simp] theorem State.skipIf_v (s : State) (c : Bool) : (s.skipIf c).v = s.v := by
  unfold State.skipIf; split <;> rfl
@[simp] theorem State.skipIf_dt (s : State) (c : Bool) : (s.skipIf c).dt = s.dt := by
  unfold State.skipIf; split <;> rfl
@[simp] theorem State.skipIf_st (s : State) (c : Bool) : (s.skipIf c).st = s.st := by
  unfold State.skipIf; split <;> rfl
@[simp] theorem State.skipIf_keys (s : State) (c : Bool) : (s.skipIf c).keys = s.keys := by
  unfold State.skipIf; split <;> rfl
@[simp] theorem State.skipIf_fault (s : State) (c : Bool) : (s.skipIf c).fault = s.fault := by
  unfold State.skipIf; split <;> rfl
@[simp] theorem State.skipIf_params (s : State) (c : Bool) : (s.skipIf c).params = s.params := by
  unfold State.skipIf; split <;> rfl
@[simp] theorem State.skipIf_rnd (s : State) (c : Bool) : (s.skipIf c).rnd = s.rnd := by
  unfold State.skipIf; split <;> rfl
@[simp] theorem State.skipIf_draws (s : State) (c : Bool) : (s.skipIf c).draws = s.draws := by
  unfold State.skipIf; split <;> rfl
@[simp] theorem State.raiseVFIf_mem (s : State) (c : Bool) : (s.raiseVFIf c).mem = s.mem := by
  unfold State.raiseVFIf; split <;> rfl
@[simp] theorem State.raiseVFIf_display (s : State) (c : Bool) : (s.raiseVFIf c).display = s.display := by
  unfold State.raiseVFIf; split <;> rfl
@[simp] theorem State.raiseVFIf_pc (s : State) (c : Bool) : (s.raiseVFIf c).pc = s.pc := by
  unfold State.raiseVFIf; split <;> rfl
@[simp] theorem State.raiseVFIf_i (s : State) (c : Bool) : (s.raiseVFIf c).i = s.i := by
  unfold State.raiseVFIf; split <;> rfl
@[simp] theorem State.raiseVFIf_stack (s : State) (c : Bool) : (s.raiseVFIf c).stack = s.stack := by
  unfold State.raiseVFIf; split <;> rfl
@[simp] theorem State.raiseVFIf_sp (s : State) (c : Bool) : (s.raiseVFIf c).sp = s.sp := by
  unfold State.raiseVFIf; split <;> rfl
@[simp] theorem State.raiseVFIf_dt (s : State) (c : Bool) : (s.raiseVFIf c).dt = s.dt := by
  unfold State.raiseVFIf; split <;> rfl
@[simp] theorem State.raiseVFIf_st (s : State) (c : Bool) : (s.raiseVFIf c).st = s.st := by
  unfold State.raiseVFIf; split <;> rfl
@[simp] theorem State.raiseVFIf_keys (s : State) (c : Bool) : (s.raiseVFIf c).keys = s.keys := by
  unfold State.raiseVFIf; split <;> rfl
@[simp] theorem State.raiseVFIf_fault (s : State) (c : Bool) : (s.raiseVFIf c).fault = s.fault := by
  unfold State.raiseVFIf; split <;> rfl
@[simp] theorem State.raiseVFIf_params (s : State) (c : Bool) : (s.raiseVFIf c).params = s.params := by
  unfold State.raiseVFIf; split <;> rfl
@[simp] theorem State.raiseVFIf_rnd (s : State) (c : Bool) : (s.raiseVFIf c).rnd = s.rnd := by
  unfold State.raiseVFIf; split <;> rfl
@[simp] theorem State.raiseVFIf_draws (s : State) (c : Bool) : (s.raiseVFIf c).draws = s.draws := by
  unfold State.raiseVFIf; split <;> rfl
@[simp] theorem timerDecay_mem (s : State) : (timerDecay s).mem = s.mem := by
  unfold timerDecay; split <;> rfl
@[simp] theorem timerDecay_display (s : State) : (timerDecay s).display = s.display := by
  unfold timerDecay; split <;> rfl
@[simp] theorem timerDecay_pc (s : State) : (timerDecay s).pc = s.pc := by
  unfold timerDecay; split <;> rfl
@[simp] theorem timerDecay_i (s : State) : (timerDecay s).i = s.i := by
  unfold timerDecay; split <;> rfl
@[simp] theorem timerDecay_stack (s : State) : (timerDecay s).stack = s.stack := by
  unfold timerDecay; split <;> rfl
@[simp] theorem timerDecay_sp (s : State) : (timerDecay s).sp = s.sp := by
  unfold timerDecay; split <;> rfl
@[simp] theorem timerDecay_v (s : State) : (timerDecay s).v = s.v := by
  unfold timerDecay; split <;> rfl
theorem timerDecay_dt (s : State) : (timerDecay s).dt = if s.dt.toNat > 0 then s.dt - 1#8 else s.dt := by
  unfold timerDecay; split <;> rfl
@[simp] theorem timerDecay_st (s : State) : (timerDecay s).st = s.st := by
  unfold timerDecay; split <;> rfl
@[simp] theorem timerDecay_keys (s : State) : (timerDecay s).keys = s.keys := by
  unfold timerDecay; split <;> rfl
@[simp] theorem timerDecay_fault (s : State) : (timerDecay s).fault = s.fault := by
  unfold timerDecay; split <;> rfl
@[simp] theorem timerDecay_params (s : State) : (timerDecay s).params = s.params := by
  unfold timerDecay; split <;> rfl
@[simp] theorem timerDecay_rnd (s : State) : (timerDecay s).rnd = s.rnd := by
  unfold timerDecay; split <;> rfl
@[simp] theorem timerDecay_draws (s : State) : (timerDecay s).draws = s.draws := by
  unfold timerDecay; split <;> rfl
@[simp] theorem State.skipIf_V (s : State) (c : Bool) (r : Reg) : (s.skipIf c).V r = s.V r := by
  unfold State.skipIf; split <;> rfl
@[simp] theorem timerDecay_V (s : State) (r : Reg) : (timerDecay s).V r = s.V r := by
  unfold timerDecay; split <;> rfl
@[simp] theorem State.skipIf_byteAt (s : State) (c : Bool) (n : Nat) : (s.skipIf c).byteAt n = s.byteAt n := by
  unfold State.skipIf; split <;> rfl
@[simp] theorem State.raiseVFIf_byteAt (s : State) (c : Bool) (n : Nat) : (s.raiseVFIf c).byteAt n = s.byteAt n := by
  unfold State.raiseVFIf; split <;> rfl
@[simp] theorem timerDecay_byteAt (s : State) (n : Nat) : (timerDecay s).byteAt n = s.byteAt n := by
  unfold timerDecay; split <;> rfl
@[simp] theorem State.skipIf_cell (s : State) (c : Bool) (q : Fin 2048) : (s.skipIf c).cell q = s.cell q := by
  unfold State.skipIf; split <;> rfl
@[simp] theorem State.raiseVFIf_cell (s : State) (c : Bool) (q : Fin 2048) : (s.raiseVFIf c).cell q = s.cell q := by
  unfold State.raiseVFIf; split <;> rfl
@[simp] theorem timerDecay_cell (s : State) (q : Fin 2048) : (timerDecay s).cell q = s.cell q := by
  unfold timerDecay; split <;> rfl
@[simp] theorem State.skipIf_stackAt (s : State) (c : Bool) (n : Fin 16) : (s.skipIf c).stackAt n = s.stackAt n := by
  unfold State.skipIf; split <;> rfl
@[simp] theorem State.raiseVFIf_stackAt (s : State) (c : Bool) (n : Fin 16) : (s.raiseVFIf c).stackAt n = s.stackAt n := by
  unfold State.raiseVFIf; split <;> rfl
@[simp] theorem timerDecay_stackAt (s : State) (n : Fin 16) : (timerDecay s).stackAt n = s.stackAt n := by
  unfold timerDecay; split <;> rfl
@[simp] theorem State.skipIf_keyDown (s : State) (c : Bool) (n : Nat) : (s.skipIf c).keyDown n = s.keyDown n := by
  unfold State.skipIf; split <;> rfl
@[simp] theorem State.raiseVFIf_keyDown (s : State) (c : Bool) (n : Nat) : (s.raiseVFIf c).keyDown n = s.keyDown n := by
  unfold State.raiseVFIf; split <;> rfl
@[simp] theorem timerDecay_keyDown (s : State) (n : Nat) : (timerDecay s).keyDown n = s.keyDown n := by
  unfold timerDecay; split <;> rfl
@[simp] theorem State.skipIf_rndInput (s : State) (c : Bool) : (s.skipIf c).rndInput = s.rndInput := by
  unfold State.skipIf; split <;> rfl
@[simp] theorem State.raiseVFIf_rndInput (s : State) (c : Bool) : (s.raiseVFIf c).rndInput = s.rndInput := by
  unfold State.raiseVFIf; split <;> rfl
@[simp] theorem timerDecay_rndInput (s : State) : (timerDecay s).rndInput = s.rndInput := by
  unfold timerDecay; split <;> rfl

/-! ### The registers -/

theorem State.V_setV_same (s : State) (x : Reg) (b : Byte) : (s.setV x b).V x = b := by
  simp [State.V]

theorem State.V_setV_ne (s : State) (x r : Reg) (b : Byte) (h : r ≠ x) : (s.setV x b).V r = s.V r := by
  have hne : x.toNat ≠ r.toNat := fun e => h (BitVec.eq_of_toNat_eq e.symm)
  simp [State.V, Vector.getElem_set_ne, hne]

/-- Reading the register file after a write. -/
theorem State.V_setV (s : State) (x r : Reg) (b : Byte) :
    (s.setV x b).V r = if r = x then b else s.V r := by
  split
  · next h => subst h; exact s.V_setV_same r b
  · next h => exact s.V_setV_ne x r b h

theorem State.V_setVF (s : State) (r : Reg) (b : Byte) : (s.setVF b).V r = if r = VF then b else s.V r :=
  s.V_setV VF r b

theorem State.V_raiseVFIf (s : State) (c : Bool) (r : Reg) :
    (s.raiseVFIf c).V r = if c = true ∧ r = VF then 1#8 else s.V r := by
  cases c <;> simp [State.raiseVFIf, State.setVF, State.V_setV]

/-- Two register files that read alike are equal. -/
theorem State.v_ext {s t : State} (h : ∀ r, t.V r = s.V r) : t.v = s.v := by
  apply Vector.ext
  intro n hn
  have key := h (BitVec.ofNat 4 n)
  have hn' : (BitVec.ofNat 4 n).toNat = n := by simp [Nat.mod_eq_of_lt hn]
  simpa [State.V, hn'] using key

end Sys2Proof.Machine
end

