-- ==== Sys2Proof/Laws/Memory.lean ====
section
/-! SUPPORT. Memory and display as data: reading after writing, and the canonical forms that every operation keeps. -/

namespace Sys2Proof.Machine

/-! ### The memory list -/

theorem Memory.read_drop_same (p : Params) (m : List Host.Cell) (a : Nat) :
    Memory.read p (Memory.drop m a) a = Memory.unlisted p a := by
  induction m with
  | nil => rfl
  | cons c rest ih =>
    by_cases h : c.1 = a
    · simpa [Memory.drop, h] using ih
    · simpa [Memory.drop, Memory.read, h] using ih

theorem Memory.read_drop_ne (p : Params) (m : List Host.Cell) (a n : Nat) (hn : n ≠ a) :
    Memory.read p (Memory.drop m a) n = Memory.read p m n := by
  induction m with
  | nil => rfl
  | cons c rest ih =>
    by_cases h : c.1 = a
    · have : c.1 ≠ n := by omega
      simpa [Memory.drop, Memory.read, h, hn.symm] using ih
    · by_cases hc : c.1 = n <;> simp [Memory.drop, Memory.read, h, hc, hn] at ih ⊢
      exact ih

theorem Memory.read_insert_same (p : Params) (m : List Host.Cell) (a : Nat) (b : Byte)
    (fresh : ∀ c ∈ m, c.1 ≠ a) : Memory.read p (Memory.insert a b m) a = b := by
  induction m with
  | nil => simp [Memory.insert, Memory.read]
  | cons c rest ih =>
    have hc := fresh c (by simp)
    have ih' := ih fun d hd => fresh d (by simp [hd])
    by_cases h : a < c.1 <;> simp [Memory.insert, Memory.read, h, hc, ih']

theorem Memory.read_insert_ne (p : Params) (m : List Host.Cell) (a n : Nat) (b : Byte) (hn : n ≠ a) :
    Memory.read p (Memory.insert a b m) n = Memory.read p m n := by
  induction m with
  | nil => simp [Memory.insert, Memory.read, hn.symm]
  | cons c rest ih =>
    by_cases h : a < c.1
    · simp [Memory.insert, Memory.read, h, hn.symm]
    · simp only [Memory.insert, if_neg h, Memory.read, ih]

theorem Memory.mem_drop (m : List Host.Cell) (a : Nat) (c : Host.Cell) :
    c ∈ Memory.drop m a ↔ c ∈ m ∧ c.1 ≠ a := by
  simp [Memory.drop]

theorem Memory.mem_insert (m : List Host.Cell) (a : Nat) (b : Byte) (c : Host.Cell) :
    c ∈ Memory.insert a b m ↔ c = (a, b) ∨ c ∈ m := by
  induction m with
  | nil => simp [Memory.insert]
  | cons d rest ih =>
    by_cases h : a < d.1
    · simp [Memory.insert, h]
    · simp only [Memory.insert, h, if_false, List.mem_cons, ih]
      tauto

/-- Reading after writing: the address written gives the byte written, every other address what it gave. -/
theorem Memory.read_write (p : Params) (m : List Host.Cell) (a n : Nat) (b : Byte) :
    Memory.read p (Memory.write p m a b) n = if n = a then b else Memory.read p m n := by
  unfold Memory.write
  by_cases hn : n = a
  · subst hn
    by_cases hb : b = Memory.unlisted p n
    · simp [hb, Memory.read_drop_same]
    · have fresh : ∀ c ∈ Memory.drop m n, c.1 ≠ n := fun c hc => ((Memory.mem_drop m n c).1 hc).2
      simp [hb, Memory.read_insert_same p _ n b fresh]
  · by_cases hb : b = Memory.unlisted p a
    · simp [hb, hn, Memory.read_drop_ne]
    · simp [hb, hn, Memory.read_insert_ne, Memory.read_drop_ne]

theorem Memory.insert_rising (m : List Host.Cell) (a : Nat) (b : Byte)
    (rising : m.Pairwise fun c d => c.1 < d.1) (fresh : ∀ c ∈ m, c.1 ≠ a) :
    (Memory.insert a b m).Pairwise fun c d => c.1 < d.1 := by
  induction m with
  | nil => simp [Memory.insert]
  | cons c rest ih =>
    have hc := List.pairwise_cons.1 rising
    have hne := fresh c (by simp)
    by_cases h : a < c.1
    · simp only [Memory.insert, h, if_true, List.pairwise_cons]
      refine ⟨?_, hc.1, hc.2⟩
      intro d hd
      rcases List.mem_cons.1 hd with rfl | hd
      · exact h
      · exact Nat.lt_trans h (hc.1 d hd)
    · simp only [Memory.insert, h, if_false, List.pairwise_cons]
      refine ⟨?_, ih hc.2 fun d hd => fresh d (by simp [hd])⟩
      intro d hd
      rcases (Memory.mem_insert rest a b d).1 hd with rfl | hd
      · show c.1 < a
        omega
      · exact hc.1 d hd

/-- The empty list, the memory of reset, is canonical. -/
theorem Memory.wf_nil (p : Params) : Memory.wf p [] := by
  simp [Memory.wf]

/-- A write to a cell of memory keeps the canonical form. -/
theorem Memory.wf_write (p : Params) (m : List Host.Cell) (a : Nat) (b : Byte)
    (hm : Memory.wf p m) (ha : a < 4096) : Memory.wf p (Memory.write p m a b) := by
  have hdrop : (Memory.drop m a).Pairwise fun c d => c.1 < d.1 := hm.1.filter _
  unfold Memory.write
  split
  · exact ⟨hdrop, fun c hc => hm.2 c ((Memory.mem_drop m a c).1 hc).1⟩
  · next hb =>
    refine ⟨Memory.insert_rising _ a b hdrop fun c hc => ((Memory.mem_drop m a c).1 hc).2, ?_⟩
    intro c hc
    rcases (Memory.mem_insert _ a b c).1 hc with rfl | hc
    · exact ⟨ha, hb⟩
    · exact hm.2 c ((Memory.mem_drop m a c).1 hc).1

/-! ### The display list -/

theorem Screen.lit_iff (d : List (Fin 2048)) (k : Fin 2048) : Screen.lit d k = true ↔ k ∈ d := by
  simp [Screen.lit]

theorem Screen.mem_insert (d : List (Fin 2048)) (k q : Fin 2048) :
    q ∈ Screen.insert k d ↔ q = k ∨ q ∈ d := by
  induction d with
  | nil => simp [Screen.insert]
  | cons j rest ih =>
    by_cases h : k < j
    · simp [Screen.insert, h]
    · simp only [Screen.insert, h, if_false, List.mem_cons, ih]
      tauto

/-- Reading after toggling: the toggled cell holds the other value, every other cell what it held. -/
theorem Screen.lit_toggle (d : List (Fin 2048)) (k q : Fin 2048) :
    Screen.lit (Screen.toggle d k) q = if q = k then !Screen.lit d k else Screen.lit d q := by
  rw [Bool.eq_iff_iff]
  unfold Screen.toggle
  by_cases hk : Screen.lit d k = true
  · have hmem := (Screen.lit_iff d k).1 hk
    by_cases hq : q = k
    · subst hq; simp [hk, Screen.lit_iff]
    · simp [hk, hq, Screen.lit_iff]
  · by_cases hq : q = k
    · subst hq; simp [hk, Screen.lit_iff, Screen.mem_insert]
    · simp [hk, hq, Screen.lit_iff, Screen.mem_insert]

/-- The clear display is canonical. -/
theorem Screen.wf_nil : Screen.wf [] := List.Pairwise.nil

theorem Screen.insert_rising (d : List (Fin 2048)) (k : Fin 2048) (rising : Screen.wf d) (fresh : k ∉ d) :
    Screen.wf (Screen.insert k d) := by
  induction d with
  | nil => simp [Screen.insert]
  | cons j rest ih =>
    have hj := List.pairwise_cons.1 rising
    have hne : k ≠ j := fun e => fresh (by simp [e])
    by_cases h : k < j
    · simp only [Screen.insert, h, if_true, Screen.wf, List.pairwise_cons]
      refine ⟨?_, hj.1, hj.2⟩
      intro q hq
      rcases List.mem_cons.1 hq with rfl | hq
      · exact h
      · exact lt_trans h (hj.1 q hq)
    · simp only [Screen.insert, h, if_false, Screen.wf, List.pairwise_cons]
      refine ⟨?_, ih hj.2 fun hk => fresh (by simp [hk])⟩
      intro q hq
      rcases (Screen.mem_insert rest k q).1 hq with rfl | hq
      · exact lt_of_le_of_ne (not_lt.1 h) hne.symm
      · exact hj.1 q hq

/-- A toggle keeps the canonical form. -/
theorem Screen.wf_toggle (d : List (Fin 2048)) (k : Fin 2048) (hd : Screen.wf d) :
    Screen.wf (Screen.toggle d k) := by
  unfold Screen.toggle
  split
  · exact List.Pairwise.filter _ hd
  · next h => exact Screen.insert_rising d k hd fun hk => h ((Screen.lit_iff d k).2 hk)

end Sys2Proof.Machine
end

