-- ==== Sys2Proof/Laws/Ops.lean ====
section
/-! SUPPORT. One lemma per shared operation that says what it can do; later proofs cite it and do not unfold the operation. -/

namespace Sys2Proof.Machine

/-! ### Memory -/

theorem State.byteAt_setByte (s : State) (a n : Nat) (b : Byte) :
    (s.setByte a b).byteAt n = if n = a then b else s.byteAt n :=
  Memory.read_write s.params s.mem a n b

/-- A read in bounds answers the byte, one out of bounds raises (spec/20_memory.md R52). -/
theorem State.memRead_ok (s : State) (a : Nat) (h : a < 4096) : s.memRead a = .ok (s.byteAt a) := by
  simp [State.memRead, h]

theorem State.memRead_error (s : State) (a : Nat) (h : 4096 ≤ a) : s.memRead a = .error .boundsError := by
  simp [State.memRead, Nat.not_lt.2 h]

theorem State.memWrite_ok (s : State) (a : Nat) (b : Byte) (h : a < 4096) : s.memWrite a b = .ok (s.setByte a b) := by
  simp [State.memWrite, h]

theorem State.memWrite_error (s : State) (a : Nat) (b : Byte) (h : 4096 ≤ a) :
    s.memWrite a b = .error .boundsError := by
  simp [State.memWrite, Nat.not_lt.2 h]

/-- Two states that differ at most in memory. -/
def OnlyMem (s t : State) : Prop := ∃ m, t = { s with mem := m }

/-- Stores in bounds all happen: nothing but memory changes, memory keeps its form, the stored addresses read as the bytes of
the list, every other address as before. -/
theorem State.memWriteAll_ok (bs : List Byte) : ∀ (s : State) (a : Nat), a + bs.length ≤ 4096 →
    ∃ t, s.memWriteAll a bs = .ok t ∧ OnlyMem s t ∧ (Memory.wf s.params s.mem → Memory.wf t.params t.mem) ∧
      (∀ n, (n < a ∨ a + bs.length ≤ n) → t.byteAt n = s.byteAt n) ∧
      ∀ (k : Nat) (hk : k < bs.length), t.byteAt (a + k) = bs[k] := by
  induction bs with
  | nil =>
    intro s a _
    exact ⟨s, rfl, ⟨s.mem, rfl⟩, id, fun _ _ => rfl, fun k hk => absurd hk (Nat.not_lt_zero k)⟩
  | cons b rest ih =>
    intro s a h
    have hlen : (b :: rest).length = rest.length + 1 := rfl
    obtain ⟨t, hrun, honly, hwf, hout, hin⟩ := ih (s.setByte a b) (a + 1) (by omega)
    refine ⟨t, ?_, ?_, ?_, ?_, ?_⟩
    · simp only [State.memWriteAll, State.memWrite_ok s a b (by omega), hrun]
    · exact honly
    · exact fun hs => hwf (Memory.wf_write s.params s.mem a b hs (by omega))
    · intro n hn
      have hna : n ≠ a := by omega
      rw [hout n (by omega), State.byteAt_setByte, if_neg hna]
    · intro k hk
      cases k with
      | zero =>
        have hz := hout a (by omega)
        rw [State.byteAt_setByte, if_pos rfl] at hz
        simpa using hz
      | succ k =>
        have hs := hin k (by omega)
        have e : a + 1 + k = a + (k + 1) := by omega
        rw [e] at hs
        simpa using hs

/-- Where the last store of a list is out of bounds, BoundsError is raised. -/
theorem State.memWriteAll_error (bs : List Byte) : ∀ (s : State) (a : Nat), bs ≠ [] → 4096 < a + bs.length →
    s.memWriteAll a bs = .error .boundsError := by
  induction bs with
  | nil => intro s a h; exact absurd rfl h
  | cons b rest ih =>
    intro s a _ h
    have hlen : (b :: rest).length = rest.length + 1 := rfl
    by_cases ha : a < 4096
    · have hne : rest ≠ [] := by
        intro e
        have : rest.length = 0 := by rw [e]; rfl
        omega
      simp only [State.memWriteAll, State.memWrite_ok s a b ha]
      exact ih (s.setByte a b) (a + 1) hne (by omega)
    · simp only [State.memWriteAll, State.memWrite_error s a b (by omega)]

/-- Two states that differ at most in the V registers. -/
def OnlyV (s t : State) : Prop := ∃ v, t = { s with v := v }

/-- Loads in bounds all happen: nothing but the V registers changes, a listed register holds the byte at its offset, every other
register what it held. -/
theorem State.loadEach_ok (ks : List Reg) : ∀ (s : State) (a : Nat), (∀ k ∈ ks, a + k.toNat < 4096) →
    ∃ t, s.loadEach a ks = .ok t ∧ OnlyV s t ∧
      ∀ r, t.V r = if r ∈ ks then s.byteAt (a + r.toNat) else s.V r := by
  induction ks with
  | nil => intro s a _; exact ⟨s, rfl, ⟨s.v, rfl⟩, fun r => by simp⟩
  | cons k rest ih =>
    intro s a h
    obtain ⟨t, hrun, honly, hV⟩ := ih (s.setV k (s.byteAt (a + k.toNat))) a fun j hj => h j (by simp [hj])
    refine ⟨t, ?_, honly, ?_⟩
    · simp only [State.loadEach, State.memRead_ok s _ (h k (by simp)), hrun]
    · intro r
      rw [hV r, State.setV_byteAt, State.V_setV]
      by_cases hr : r ∈ rest
      · simp [hr]
      · by_cases hk : r = k <;> simp [hr, hk]

/-- Where some listed load is out of bounds, BoundsError is raised. -/
theorem State.loadEach_error (ks : List Reg) : ∀ (s : State) (a : Nat), (∃ k ∈ ks, 4096 ≤ a + k.toNat) →
    s.loadEach a ks = .error .boundsError := by
  induction ks with
  | nil => intro s a ⟨k, hk, _⟩; simp at hk
  | cons k rest ih =>
    intro s a ⟨j, hj, hout⟩
    by_cases hk : a + k.toNat < 4096
    · simp only [State.loadEach, State.memRead_ok s _ hk]
      refine ih _ a ⟨j, ?_, hout⟩
      rcases List.mem_cons.1 hj with rfl | hj
      · omega
      · exact hj
    · simp only [State.loadEach, State.memRead_error s _ (Nat.not_lt.1 hk)]

/-- `V0` to `Vx` are the registers numbered at most `x`. -/
theorem mem_regsUpTo (x r : Reg) : r ∈ regsUpTo x ↔ r.toNat ≤ x.toNat := by
  simp only [regsUpTo, List.mem_map, List.mem_range]
  constructor
  · rintro ⟨n, hn, rfl⟩
    have := x.isLt
    simp
    omega
  · intro h
    exact ⟨r.toNat, by omega, by simp⟩

theorem length_regsUpTo (x : Reg) : (regsUpTo x).length = x.toNat + 1 := by
  simp [regsUpTo]

theorem getElem_regsUpTo (x : Reg) (k : Nat) (hk : k < (regsUpTo x).length) :
    (regsUpTo x)[k] = BitVec.ofNat 4 k := by
  simp [regsUpTo]

/-! ### Display -/

theorem State.cell_toggleCell (s : State) (k q : Fin 2048) :
    (s.toggleCell k).cell q = if q = k then !s.cell k else s.cell q :=
  Screen.lit_toggle s.display k q

theorem State.cell_clearDisplay (s : State) (q : Fin 2048) : s.clearDisplay.cell q = false := rfl

/-- A draw touches the display and VF alone, and keeps the display's form. -/
def OnlyDrawn (s t : State) : Prop :=
  (∃ d v, t = { s with display := d, v := v }) ∧ (∀ r, r ≠ VF → t.V r = s.V r) ∧
    (Screen.wf s.display → Screen.wf t.display)

theorem OnlyDrawn.rfl (s : State) : OnlyDrawn s s := ⟨⟨s.display, s.v, Eq.refl s⟩, fun _ _ => Eq.refl _, id⟩

theorem OnlyDrawn.trans {s t u : State} (h : OnlyDrawn s t) (g : OnlyDrawn t u) : OnlyDrawn s u := by
  refine ⟨?_, fun r hr => (g.2.1 r hr).trans (h.2.1 r hr), fun hs => g.2.2 (h.2.2 hs)⟩
  obtain ⟨d, v, e⟩ := h.1
  obtain ⟨d', v', e'⟩ := g.1
  exact ⟨d', v', by rw [e', e]⟩

theorem State.drawPixel_cases (s : State) (o : Option (Fin 2048)) :
    (∃ t, s.drawPixel o = .ok t ∧ OnlyDrawn s t) ∨ s.drawPixel o = .error .boundsError := by
  cases o with
  | none => exact .inr rfl
  | some k =>
    refine .inl ⟨_, rfl, ?_, ?_, ?_⟩
    · exact ⟨_, (s.raiseVFIf (s.cell k)).v, by unfold State.raiseVFIf; split <;> rfl⟩
    · intro r hr
      rw [State.toggleCell_V, State.V_raiseVFIf]
      simp [hr]
    · intro hs
      rw [State.toggleCell_display, State.raiseVFIf_display]
      exact Screen.wf_toggle _ _ hs

theorem State.drawBits_cases (x0 y0 i : Nat) (sprite : Byte) (js : List Nat) : ∀ s : State,
    (∃ t, s.drawBits x0 y0 i sprite js = .ok t ∧ OnlyDrawn s t) ∨
      s.drawBits x0 y0 i sprite js = .error .boundsError := by
  induction js with
  | nil => exact fun s => .inl ⟨s, rfl, OnlyDrawn.rfl s⟩
  | cons j rest ih =>
    intro s
    by_cases hb : spriteBit sprite j = true
    · rcases s.drawPixel_cases (pixelIndex s.params.compat x0 y0 i j) with ⟨t, ht, hd⟩ | he
      · rcases ih t with ⟨u, hu, hd'⟩ | he
        · exact .inl ⟨u, by simp only [State.drawBits, hb, if_true, ht, hu], hd.trans hd'⟩
        · exact .inr (by simp only [State.drawBits, hb, if_true, ht, he])
      · exact .inr (by simp only [State.drawBits, hb, if_true, he])
    · rcases ih s with ⟨u, hu, hd⟩ | he
      · exact .inl ⟨u, by simp [State.drawBits, hb, hu], hd⟩
      · exact .inr (by simp [State.drawBits, hb, he])

/-- Drawing either touches the display and VF alone, or raises BoundsError. -/
theorem State.drawRows_cases (x0 y0 : Nat) (is : List Nat) : ∀ s : State,
    (∃ t, s.drawRows x0 y0 is = .ok t ∧ OnlyDrawn s t) ∨ s.drawRows x0 y0 is = .error .boundsError := by
  induction is with
  | nil => exact fun s => .inl ⟨s, rfl, OnlyDrawn.rfl s⟩
  | cons i rest ih =>
    intro s
    by_cases ha : s.effAddr i < 4096
    · rcases s.drawBits_cases x0 y0 i (s.byteAt (s.effAddr i)) (List.range 8) with ⟨t, ht, hd⟩ | he
      · rcases ih t with ⟨u, hu, hd'⟩ | he
        · exact .inl ⟨u, by simp only [State.drawRows, State.memRead_ok s _ ha, ht, hu], hd.trans hd'⟩
        · exact .inr (by simp only [State.drawRows, State.memRead_ok s _ ha, ht, he])
      · exact .inr (by simp only [State.drawRows, State.memRead_ok s _ ha, he])
    · exact .inr (by simp only [State.drawRows, State.memRead_error s _ (Nat.not_lt.1 ha)])

/-! ### Stack -/

/-- A push below 16 entries writes one entry and counts it; at 16 it raises (spec/41_control_flow.md R112). -/
theorem State.push_cases (s : State) (a : Word) :
    (∃ h : s.sp.val < 16, s.push a =
      .ok { s with stack := s.stack.set s.sp.val a h, sp := ⟨s.sp.val + 1, Nat.succ_lt_succ h⟩ }) ∨
    (s.sp.val = 16 ∧ s.push a = .error .stackOverflowError) := by
  by_cases h : s.sp.val < 16
  · exact .inl ⟨h, by simp [State.push, h]⟩
  · have := s.sp.isLt
    exact .inr ⟨by omega, by simp [State.push, h]⟩

/-- A pop above 0 entries uncounts one and moves it to PC; at 0 it raises (R110). -/
theorem State.popPc_cases (s : State) :
    (∃ (h : 0 < s.sp.val) (k : Fin 16), k.val = s.sp.val - 1 ∧ s.popPc =
      .ok { s with sp := ⟨s.sp.val - 1, by omega⟩, pc := s.stackAt k }) ∨
    (s.sp.val = 0 ∧ s.popPc = .error .stackUnderflowError) := by
  by_cases h : s.sp.val = 0
  · exact .inr ⟨h, by simp [State.popPc, h]⟩
  · have := s.sp.isLt
    exact .inl ⟨by omega, ⟨s.sp.val - 1, by omega⟩, rfl, by simp [State.popPc, h, State.stackAt]⟩

/-! ### Keys -/

/-- The scan answers the highest pressed key below its bound, or that none is pressed. -/
theorem State.highestKeyBelow_cases (s : State) (n : Nat) :
    (∃ k, s.highestKeyBelow n = some k ∧ k < n ∧ s.keyDown k = true ∧ ∀ j, j < n → s.keyDown j = true → j ≤ k) ∨
    (s.highestKeyBelow n = none ∧ ∀ j, j < n → s.keyDown j = false) := by
  induction n with
  | zero => exact .inr ⟨rfl, fun j hj => absurd hj (Nat.not_lt_zero j)⟩
  | succ n ih =>
    by_cases h : s.keyDown n = true
    · exact .inl ⟨n, by simp [State.highestKeyBelow, h], by omega, h, fun j hj _ => by omega⟩
    · have e : s.highestKeyBelow (n + 1) = s.highestKeyBelow n := by simp [State.highestKeyBelow, h]
      rw [e]
      rcases ih with ⟨k, hk, hlt, hdown, hmax⟩ | ⟨hk, hall⟩
      · refine .inl ⟨k, hk, by omega, hdown, fun j hj hjd => ?_⟩
        by_cases hjn : j = n
        · subst hjn; exact absurd hjd h
        · exact hmax j (by omega) hjd
      · refine .inr ⟨hk, fun j hj => ?_⟩
        by_cases hjn : j = n
        · subst hjn; simpa using h
        · exact hall j (by omega)

/-! ### Errors and the end of a cycle -/

/-- The two ways an instruction of several writes ends (spec/60_exceptions.md R206). -/
theorem commit_cases (s : State) (r : Except ErrorKind State) :
    (∃ t, r = .ok t ∧ commit s r = .next t) ∨ (∃ e, r = .error e ∧ commit s r = .next (s.withFault e)) := by
  cases r with
  | ok t => exact .inl ⟨t, rfl, rfl⟩
  | error e => exact .inr ⟨e, rfl, rfl⟩

/-- What the end of a cycle makes of the execute stage's next state (spec/40_cycle.md R90). -/
theorem finishCycle_next (s t : State) :
    (t.fault = none ∧ finishCycle s (.next t) = .next (endCycle t)) ∨
    (∃ e, t.fault = some e ∧ finishCycle s (.next t) = .next (s.withFault e)) := by
  cases h : t.fault with
  | none => exact .inl ⟨rfl, by simp [finishCycle, h]⟩
  | some e => exact .inr ⟨e, rfl, by simp [finishCycle, h, raise]⟩

/-- What one cycle can do: nothing, when halted; raise at the fetch; or run the fetched word (R90). -/
theorem cycle_cases (s : State) :
    (∃ e, s.fault = some e ∧ cycle s = .next s) ∨
    (s.fault = none ∧ 4095 ≤ s.pc.toNat ∧ cycle s = .next (s.withFault .boundsError)) ∨
    (s.fault = none ∧ s.pc.toNat ≤ 4094 ∧ cycle s = finishCycle s
      (execWord (wordOfBytes (s.byteAt s.pc.toNat) (s.byteAt (s.pc.toNat + 1))) s.pastFetch)) := by
  cases hf : s.fault with
  | some e => exact .inl ⟨e, rfl, by simp [cycle, hf]⟩
  | none =>
    refine .inr ?_
    by_cases hp : s.pc.toNat + 1 < 4096
    · exact .inr ⟨rfl, by omega, by simp [cycle, hf, State.fetch, State.memReadWord, hp]⟩
    · exact .inl ⟨rfl, by omega, by simp [cycle, hf, State.fetch, State.memReadWord, hp, raise]⟩

/-- A word placed where the next fetch reads keeps memory's form. -/
theorem State.placeWord_wf (s : State) (w : Word) (h : Memory.wf s.params s.mem) :
    Memory.wf (s.placeWord w).params (s.placeWord w).mem := by
  unfold State.placeWord
  split
  · next hp => exact Memory.wf_write _ _ _ _ (Memory.wf_write _ _ _ _ h (by omega)) hp
  · exact h

/-- A ROM copied into memory keeps memory's form. -/
theorem State.copyIn_wf (rom : List Byte) : ∀ (s : State) (a : Nat), a + rom.length ≤ 4096 →
    Memory.wf s.params s.mem → Memory.wf (s.copyIn a rom).params (s.copyIn a rom).mem := by
  induction rom with
  | nil => exact fun s a _ h => h
  | cons b rest ih =>
    intro s a hlen h
    have e : (b :: rest).length = rest.length + 1 := rfl
    exact ih (s.setByte a b) (a + 1) (by omega) (Memory.wf_write _ _ _ _ h (by omega))

end Sys2Proof.Machine
end

