-- ==== Sys2Proof/Laws/PerInstr.lean ====
section
/-! SUPPORT. Statements about every instruction as syntax, one lemma per constructor. -/

namespace Sys2Proof

/-- The instruction's word selects its own row of the opcode map: `(w and mask) = match` (spec/30_encoding.md R73, R75). -/
def Laws.OpcodeRow.Statement (i : Instr) : Prop :=
  encode i &&& (opcodeRow i).2 = (opcodeRow i).1

/-! ### The masks of the formats -/

theorem mask_formatXNN (op : Nibble) (x : Reg) (nn : Byte) : (op ++ x ++ nn) &&& 0xF000#16 = op ++ 0#4 ++ 0#8 := by
  apply BitVec.eq_of_getLsbD_eq
  intro i hi
  have h : i < 16 := hi
  rw [BitVec.getLsbD_and, bit_formatXNN, bit_formatXNN]
  interval_cases i <;> simp

theorem mask_formatX (op : Nibble) (x : Reg) (nn : Byte) : (op ++ x ++ nn) &&& 0xF0FF#16 = op ++ 0#4 ++ nn := by
  apply BitVec.eq_of_getLsbD_eq
  intro i hi
  have h : i < 16 := hi
  rw [BitVec.getLsbD_and, bit_formatXNN, bit_formatXNN]
  interval_cases i <;> simp

theorem mask_formatXY (op : Nibble) (x y : Reg) (n : Nibble) :
    (op ++ x ++ y ++ n) &&& 0xF00F#16 = op ++ 0#4 ++ 0#4 ++ n := by
  apply BitVec.eq_of_getLsbD_eq
  intro i hi
  have h : i < 16 := hi
  rw [BitVec.getLsbD_and, bit_formatXYN, bit_formatXYN]
  interval_cases i <;> simp

theorem mask_formatXYN (op : Nibble) (x y : Reg) (n : Nibble) :
    (op ++ x ++ y ++ n) &&& 0xF000#16 = op ++ 0#4 ++ 0#4 ++ 0#4 := by
  apply BitVec.eq_of_getLsbD_eq
  intro i hi
  have h : i < 16 := hi
  rw [BitVec.getLsbD_and, bit_formatXYN, bit_formatXYN]
  interval_cases i <;> simp

theorem mask_formatNNN (op : Nibble) (nnn : Addr12) : (op ++ nnn) &&& 0xF000#16 = op ++ 0#12 := by
  apply BitVec.eq_of_getLsbD_eq
  intro i hi
  have h : i < 16 := hi
  rw [BitVec.getLsbD_and, bit_formatNNN, bit_formatNNN]
  interval_cases i <;> simp

/-! ### One lemma per instruction -/

theorem Laws.OpcodeRow.cls : Laws.OpcodeRow.Statement .cls := by unfold Laws.OpcodeRow.Statement; decide
theorem Laws.OpcodeRow.ret : Laws.OpcodeRow.Statement .ret := by unfold Laws.OpcodeRow.Statement; decide
theorem Laws.OpcodeRow.jp (nnn : Addr12) : Laws.OpcodeRow.Statement (.jp nnn) :=
  mask_formatNNN 0x1#4 nnn
theorem Laws.OpcodeRow.call (nnn : Addr12) : Laws.OpcodeRow.Statement (.call nnn) :=
  mask_formatNNN 0x2#4 nnn
theorem Laws.OpcodeRow.seImm (x : Reg) (nn : Byte) : Laws.OpcodeRow.Statement (.seImm x nn) :=
  mask_formatXNN 0x3#4 x nn
theorem Laws.OpcodeRow.sneImm (x : Reg) (nn : Byte) : Laws.OpcodeRow.Statement (.sneImm x nn) :=
  mask_formatXNN 0x4#4 x nn
theorem Laws.OpcodeRow.seReg (x y : Reg) : Laws.OpcodeRow.Statement (.seReg x y) :=
  mask_formatXY 0x5#4 x y 0x0#4
theorem Laws.OpcodeRow.ldImm (x : Reg) (nn : Byte) : Laws.OpcodeRow.Statement (.ldImm x nn) :=
  mask_formatXNN 0x6#4 x nn
theorem Laws.OpcodeRow.addImm (x : Reg) (nn : Byte) : Laws.OpcodeRow.Statement (.addImm x nn) :=
  mask_formatXNN 0x7#4 x nn
theorem Laws.OpcodeRow.ldReg (x y : Reg) : Laws.OpcodeRow.Statement (.ldReg x y) :=
  mask_formatXY 0x8#4 x y 0x0#4
theorem Laws.OpcodeRow.or (x y : Reg) : Laws.OpcodeRow.Statement (.or x y) :=
  mask_formatXY 0x8#4 x y 0x1#4
theorem Laws.OpcodeRow.and (x y : Reg) : Laws.OpcodeRow.Statement (.and x y) :=
  mask_formatXY 0x8#4 x y 0x2#4
theorem Laws.OpcodeRow.xor (x y : Reg) : Laws.OpcodeRow.Statement (.xor x y) :=
  mask_formatXY 0x8#4 x y 0x3#4
theorem Laws.OpcodeRow.addReg (x y : Reg) : Laws.OpcodeRow.Statement (.addReg x y) :=
  mask_formatXY 0x8#4 x y 0x4#4
theorem Laws.OpcodeRow.sub (x y : Reg) : Laws.OpcodeRow.Statement (.sub x y) :=
  mask_formatXY 0x8#4 x y 0x5#4
theorem Laws.OpcodeRow.shr (x y : Reg) : Laws.OpcodeRow.Statement (.shr x y) :=
  mask_formatXY 0x8#4 x y 0x6#4
theorem Laws.OpcodeRow.subn (x y : Reg) : Laws.OpcodeRow.Statement (.subn x y) :=
  mask_formatXY 0x8#4 x y 0x7#4
theorem Laws.OpcodeRow.shl (x y : Reg) : Laws.OpcodeRow.Statement (.shl x y) :=
  mask_formatXY 0x8#4 x y 0xE#4
theorem Laws.OpcodeRow.sneReg (x y : Reg) : Laws.OpcodeRow.Statement (.sneReg x y) :=
  mask_formatXY 0x9#4 x y 0x0#4
theorem Laws.OpcodeRow.ldI (nnn : Addr12) : Laws.OpcodeRow.Statement (.ldI nnn) :=
  mask_formatNNN 0xA#4 nnn
theorem Laws.OpcodeRow.jpOfs (x : Reg) (nnn : Addr12) : Laws.OpcodeRow.Statement (.jpOfs x nnn) :=
  mask_formatNNN 0xB#4 nnn
theorem Laws.OpcodeRow.rnd (x : Reg) (nn : Byte) : Laws.OpcodeRow.Statement (.rnd x nn) :=
  mask_formatXNN 0xC#4 x nn
theorem Laws.OpcodeRow.drw (x y : Reg) (n : Nibble) : Laws.OpcodeRow.Statement (.drw x y n) :=
  mask_formatXYN 0xD#4 x y n
theorem Laws.OpcodeRow.skp (x : Reg) : Laws.OpcodeRow.Statement (.skp x) :=
  mask_formatX 0xE#4 x 0x9E#8
theorem Laws.OpcodeRow.sknp (x : Reg) : Laws.OpcodeRow.Statement (.sknp x) :=
  mask_formatX 0xE#4 x 0xA1#8
theorem Laws.OpcodeRow.ldVxDt (x : Reg) : Laws.OpcodeRow.Statement (.ldVxDt x) :=
  mask_formatX 0xF#4 x 0x07#8
theorem Laws.OpcodeRow.ldDtVx (x : Reg) : Laws.OpcodeRow.Statement (.ldDtVx x) :=
  mask_formatX 0xF#4 x 0x15#8
theorem Laws.OpcodeRow.ldStVx (x : Reg) : Laws.OpcodeRow.Statement (.ldStVx x) :=
  mask_formatX 0xF#4 x 0x18#8
theorem Laws.OpcodeRow.addI (x : Reg) : Laws.OpcodeRow.Statement (.addI x) :=
  mask_formatX 0xF#4 x 0x1E#8
theorem Laws.OpcodeRow.ldVxK (x : Reg) : Laws.OpcodeRow.Statement (.ldVxK x) :=
  mask_formatX 0xF#4 x 0x0A#8
theorem Laws.OpcodeRow.ldF (x : Reg) : Laws.OpcodeRow.Statement (.ldF x) :=
  mask_formatX 0xF#4 x 0x29#8
theorem Laws.OpcodeRow.ldB (x : Reg) : Laws.OpcodeRow.Statement (.ldB x) :=
  mask_formatX 0xF#4 x 0x33#8
theorem Laws.OpcodeRow.stRegs (x : Reg) : Laws.OpcodeRow.Statement (.stRegs x) :=
  mask_formatX 0xF#4 x 0x55#8
theorem Laws.OpcodeRow.ldRegs (x : Reg) : Laws.OpcodeRow.Statement (.ldRegs x) :=
  mask_formatX 0xF#4 x 0x65#8

end Sys2Proof
end

