-- ==== Sys2Proof/Tests/Slice0.lean ====
section
/-! SUPPORT. Tests: decoding of words written out from the patterns of spec/30_encoding.md R75, the well-formedness smoke test, one
or two steps per instruction with results from spec/95_test_vectors.md (the vector is named in the comment), and a witness for
every statement that has hypotheses. -/

namespace Sys2Proof.Tests

open Sys2Proof.Machine Sys2Proof.Safety

/-! ### Well-formedness and decoding -/

theorem test_wf_refuses_jpOfs_with_another_register : (Instr.jpOfs 3 0x210).wf = false := by decide
theorem test_wf_accepts_jpOfs_with_its_register : (Instr.jpOfs 2 0x210).wf = true := by decide

theorem test_decode_cls : decodeTableWord 16 0b0000_0000_1110_0000 = some (.cls) := by decide
theorem test_decode_ret : decodeTableWord 16 0b0000_0000_1110_1110 = some (.ret) := by decide
theorem test_decode_jp : decodeTableWord 16 0b0001_0010_0011_0100 = some (.jp 0x234) := by decide
theorem test_decode_call : decodeTableWord 16 0b0010_1010_1011_1100 = some (.call 0xABC) := by decide
theorem test_decode_seImm : decodeTableWord 16 0b0011_1010_0000_0000 = some (.seImm 0xA 0x00) := by decide
theorem test_decode_sneImm : decodeTableWord 16 0b0100_1010_1111_1111 = some (.sneImm 0xA 0xFF) := by decide
theorem test_decode_seReg : decodeTableWord 16 0b0101_0001_0010_0000 = some (.seReg 1 2) := by decide
theorem test_decode_ldImm : decodeTableWord 16 0b0110_1010_0010_1011 = some (.ldImm 0xA 0x2B) := by decide
theorem test_decode_addImm : decodeTableWord 16 0b0111_0001_0000_0101 = some (.addImm 1 0x05) := by decide
theorem test_decode_ldReg : decodeTableWord 16 0b1000_0001_0010_0000 = some (.ldReg 1 2) := by decide
theorem test_decode_or : decodeTableWord 16 0b1000_0001_0010_0001 = some (.or 1 2) := by decide
theorem test_decode_and : decodeTableWord 16 0b1000_0001_0010_0010 = some (.and 1 2) := by decide
theorem test_decode_xor : decodeTableWord 16 0b1000_0001_0010_0011 = some (.xor 1 2) := by decide
theorem test_decode_addReg : decodeTableWord 16 0b1000_0001_0010_0100 = some (.addReg 1 2) := by decide
theorem test_decode_sub : decodeTableWord 16 0b1000_0001_0010_0101 = some (.sub 1 2) := by decide
theorem test_decode_shr : decodeTableWord 16 0b1000_0001_0010_0110 = some (.shr 1 2) := by decide
theorem test_decode_subn : decodeTableWord 16 0b1000_0001_0010_0111 = some (.subn 1 2) := by decide
theorem test_decode_shl : decodeTableWord 16 0b1000_0001_0010_1110 = some (.shl 1 2) := by decide
theorem test_decode_sneReg : decodeTableWord 16 0b1001_0001_0010_0000 = some (.sneReg 1 2) := by decide
theorem test_decode_ldI : decodeTableWord 16 0b1010_0010_1111_0000 = some (.ldI 0x2F0) := by decide
theorem test_decode_jpOfs : decodeTableWord 16 0b1011_0010_0001_0000 = some (.jpOfs 2 0x210) := by decide
theorem test_decode_rnd : decodeTableWord 16 0b1100_0011_0001_0000 = some (.rnd 3 0x10) := by decide
theorem test_decode_drw : decodeTableWord 16 0b1101_0000_0001_0101 = some (.drw 0 1 5) := by decide
theorem test_decode_skp : decodeTableWord 16 0b1110_0011_1001_1110 = some (.skp 3) := by decide
theorem test_decode_sknp : decodeTableWord 16 0b1110_0011_1010_0001 = some (.sknp 3) := by decide
theorem test_decode_ldVxDt : decodeTableWord 16 0b1111_0100_0000_0111 = some (.ldVxDt 4) := by decide
theorem test_decode_ldDtVx : decodeTableWord 16 0b1111_0101_0001_0101 = some (.ldDtVx 5) := by decide
theorem test_decode_ldStVx : decodeTableWord 16 0b1111_0110_0001_1000 = some (.ldStVx 6) := by decide
theorem test_decode_addI : decodeTableWord 16 0b1111_0001_0001_1110 = some (.addI 1) := by decide
theorem test_decode_ldVxK : decodeTableWord 16 0b1111_0010_0000_1010 = some (.ldVxK 2) := by decide
theorem test_decode_ldF : decodeTableWord 16 0b1111_0011_0010_1001 = some (.ldF 3) := by decide
theorem test_decode_ldB : decodeTableWord 16 0b1111_0000_0011_0011 = some (.ldB 0) := by decide
theorem test_decode_stRegs : decodeTableWord 16 0b1111_0010_0101_0101 = some (.stRegs 2) := by decide
theorem test_decode_ldRegs : decodeTableWord 16 0b1111_0001_0110_0101 = some (.ldRegs 1) := by decide

/-- The unmatched words of section 3.6. -/
theorem test_decode_unmatched : ∀ w ∈ [0x0000, 0x01E0, 0x00E1, 0x0ABC, 0x5121, 0x9121, 0x8128, 0x812F, 0xE19F, 0xE000, 0xF000,
    0xF130, 0xF175, 0xF185, 0xF1FF], decodeTableWord 16 w = none := by decide

theorem test_decodeBytes_truncated : decodeBytes [0x12] = .error .truncated := rfl

/-! ### One step -/

/-- The reset state with the word at 0x200, COMPAT = 1 and policy NOP (the conventions of section 95). -/
def at0 (w : Nat) : State := State.reset.withFetchWord 16 w

/-- The same with COMPAT = 0. -/
def corrected (s : State) : State := { s with params := { s.params with compat := false } }

/-- The step answers a next state of which the test holds. -/
def after (s : State) (p : State → Bool) : Bool :=
  match step s with
  | .next t => p t
  | _ => false

/-- The step raises the error and changes nothing else. -/
def raises (s : State) (e : ErrorKind) : Bool := after s fun t => t == { s with fault := some e }

/-- Key k alone is down. -/
def press (s : State) (k : Fin 16) : State := s.setKeys ((Vector.replicate 16 false).set k.val true)

/-- T3.4.1 -/
theorem test_step_cls : (after ((((at0 0x00E0).toggleCell 0).toggleCell 100).toggleCell 2047) fun t => t.display == [] && t.pc == 0x202) = true := by decide
/-- T3.1.2 -/
theorem test_step_ret : (after { at0 0x00EE with sp := 1, stack := (Vector.replicate 16 0).set 0 0xABE } fun t => t.sp == 0 && t.pc == 0xABE && t.stackAt 0 == 0xABE) = true := by decide
/-- T3.1.1 -/
theorem test_step_ret_underflow : (raises (at0 0x00EE) .stackUnderflowError) = true := by decide
/-- T3.1.4 -/
theorem test_step_jp : (after (at0 0x1001) fun t => t.pc == 0x001) = true := by decide
/-- T3.1.6 -/
theorem test_step_call : (after { at0 0x2ABC with sp := 15 } fun t => t.sp == 16 && t.pc == 0xABC && t.stackAt 15 == 0x202) = true := by decide
/-- T3.1.7 -/
theorem test_step_call_overflow : (raises { at0 0x2ABC with sp := 16 } .stackOverflowError) = true := by decide
/-- S8 -/
theorem test_step_seImm : (after ((at0 0x3AFF).setV 0xA 255) fun t => t.pc == 0x204) = true := by decide
/-- S8 -/
theorem test_step_seImm_no : (after ((at0 0x3A00).setV 0xA 1) fun t => t.pc == 0x202) = true := by decide
/-- S8 -/
theorem test_step_sneImm : (after (at0 0x4AFF) fun t => t.pc == 0x204) = true := by decide
/-- S8 -/
theorem test_step_sneImm_no : (after ((at0 0x4AFF).setV 0xA 255) fun t => t.pc == 0x202) = true := by decide
/-- S8 -/
theorem test_step_seReg : (after (((at0 0x5120).setV 1 7).setV 2 7) fun t => t.pc == 0x204) = true := by decide
/-- S8 -/
theorem test_step_seReg_no : (after (((at0 0x5120).setV 1 1).setV 2 2) fun t => t.pc == 0x202) = true := by decide
/-- T3.2.1 -/
theorem test_step_ldImm : (after (at0 0x6FFF) fun t => t.V VF == 0xFF && t.pc == 0x202) = true := by decide
/-- T3.2.2 -/
theorem test_step_addImm : (after ((at0 0x7001).setV 0 0xFF) fun t => t.V 0 == 0 && t.V VF == 0) = true := by decide
/-- R132 -/
theorem test_step_ldReg : (after ((at0 0x8120).setV 2 9) fun t => t.V 1 == 9) = true := by decide
/-- T3.2.4 -/
theorem test_step_or : (after ((((at0 0x8121).setV 1 0x0F).setV 2 0xF0).setV VF 1) fun t => t.V 1 == 0xFF && t.V VF == 1) = true := by decide
/-- T3.2.5 -/
theorem test_step_and : (after (((at0 0x8122).setV 1 0x3C).setV 2 0x0F) fun t => t.V 1 == 0x0C) = true := by decide
/-- T3.2.6 -/
theorem test_step_xor : (after ((at0 0x8113).setV 1 0x5A) fun t => t.V 1 == 0) = true := by decide
/-- S3 -/
theorem test_step_addReg : (after (((at0 0x8124).setV 1 250).setV 2 10) fun t => t.V 1 == 4 && t.V VF == 1) = true := by decide
/-- T3.2.10 -/
theorem test_step_addReg_into_VF : (after (((at0 0x8F14).setV VF 200).setV 1 100) fun t => t.V VF == 1) = true := by decide
/-- T3.2.16 -/
theorem test_step_sub_into_VF : (after (((at0 0x8F15).setV VF 5).setV 1 3) fun t => t.V VF == 254) = true := by decide
/-- T3.2.18 -/
theorem test_step_sub_from_VF : (after (((at0 0x81F5).setV 1 10).setV VF 3) fun t => t.V VF == 1 && t.V 1 == 9) = true := by decide
/-- T3.2.28 -/
theorem test_step_shr_compat : (after (((at0 0x8126).setV 1 0xFF).setV 2 5) fun t => t.V 1 == 2 && t.V VF == 0) = true := by decide
/-- T3.2.30 -/
theorem test_step_shr_corrected : (after (corrected ((at0 0x8F26).setV 2 3)) fun t => t.V VF == 1) = true := by decide
/-- T3.2.24 -/
theorem test_step_subn_into_VF : (after (((at0 0x8F17).setV VF 3).setV 1 5) fun t => t.V VF == 4) = true := by decide
/-- T3.2.26 -/
theorem test_step_subn_by_VF : (after (((at0 0x81F7).setV 1 3).setV VF 10) fun t => t.V VF == 1 && t.V 1 == 254) = true := by decide
/-- T3.2.33 -/
theorem test_step_shl_compat : (after ((at0 0x812E).setV 2 0x81) fun t => t.V 1 == 2 && t.V VF == 0) = true := by decide
/-- T3.2.36 -/
theorem test_step_shl_corrected : (after (corrected ((at0 0x81FE).setV VF 0x81)) fun t => t.V 1 == 2 && t.V VF == 1) = true := by decide
/-- S8 -/
theorem test_step_sneReg : (after (((at0 0x9120).setV 1 1).setV 2 2) fun t => t.pc == 0x204) = true := by decide
/-- S8 -/
theorem test_step_sneReg_no : (after (((at0 0x9120).setV 1 7).setV 2 7) fun t => t.pc == 0x202) = true := by decide
/-- T3.3.1 -/
theorem test_step_ldI : (after (at0 0xAFFF) fun t => t.i == 0x0FFF) = true := by decide
/-- T3.1.13 -/
theorem test_step_jpOfs_compat : (after (((at0 0xBFFF).setI 0xFFF0).setV VF 0xFF) fun t => t.i == 0x10EE && t.pc == 0x202) = true := by decide
/-- T3.1.14 -/
theorem test_step_jpOfs_corrected : (after (corrected ((at0 0xBFFF).setV VF 0xFF)) fun t => t.pc == 0x10FE && t.i == 0) = true := by decide
/-- T3.2.39 -/
theorem test_step_rnd : (after ((at0 0xC3FF).supplyRnd 254) fun t => t.V 3 == 253) = true := by decide
/-- T3.4.3, COMPAT 1 -/
theorem test_step_drw_spill : (after (((((at0 0xD011).setI 0x300).setByte 0x300 0xF0).setV 0 62).setV 1 10) fun t =>
    t.display == [702, 703, 704, 705] && t.V VF == 0) = true := by decide
/-- T3.4.2, COMPAT 0 -/
theorem test_step_drw_wrap : (after (corrected (((((at0 0xD011).setI 0x300).setByte 0x300 0xF0).setV 0 62).setV 1 31)) fun t =>
    t.display == [1984, 1985, 2046, 2047]) = true := by decide
/-- T3.5.1 -/
theorem test_step_skp : (after (press ((at0 0xE39E).setV 3 15) 15) fun t => t.pc == 0x204) = true := by decide
/-- T3.5.3 -/
theorem test_step_skp_no_such_key : (raises ((at0 0xE39E).setV 3 0x10) .boundsError) = true := by decide
/-- T3.5.4 -/
theorem test_step_sknp : (after (at0 0xE3A1) fun t => t.pc == 0x204) = true := by decide
/-- T3.5.5 -/
theorem test_step_sknp_pressed : (after (press ((at0 0xE3A1).setV 3 5) 5) fun t => t.pc == 0x202) = true := by decide
/-- T3.5.10 -/
theorem test_step_ldVxDt : (after ((at0 0xF407).setDt 9) fun t => t.V 4 == 9 && t.dt == 8) = true := by decide
/-- T3.5.13 -/
theorem test_step_ldDtVx : (after ((at0 0xF515).setV 5 60) fun t => t.dt == 59) = true := by decide
/-- T3.5.17 -/
theorem test_step_ldStVx : (after (((at0 0xF618).setV 6 30).setDt 3) fun t => t.st == 30 && t.dt == 2) = true := by decide
/-- T3.3.3 -/
theorem test_step_addI_compat : (after (((at0 0xF11E).setI 990).setV 1 11) fun t => t.i == 1001 && t.V VF == 1) = true := by decide
/-- T3.3.8 -/
theorem test_step_addI_corrected : (after (corrected (((at0 0xFF1E).setI 995).setV VF 6)) fun t => t.i == 1001 && t.V VF == 6) = true := by decide
/-- T3.5.8 -/
theorem test_step_ldVxK : (after (((at0 0xF20A).setDt 1).setKeys #v[false, false, true, false, false, false, false, true, false,
    false, false, false, false, false, false, false]) fun t => t.V 2 == 7 && t.pc == 0x202 && t.dt == 0) = true := by decide
/-- T3.5.7 -/
theorem test_step_ldVxK_waits : (after ((at0 0xF20A).setDt 5) fun t => t.pc == 0x200 && t.dt == 4 && t.V 2 == 0) = true := by decide
/-- T3.3.13 -/
theorem test_step_ldF : (after ((at0 0xF029).setV 0 255) fun t => t.i == 1275) = true := by decide
/-- T3.3.15 -/
theorem test_step_ldB : (after (((at0 0xF033).setI 4093).setV 0 255) fun t => t.byteAt 4093 == 2 && t.byteAt 4094 == 5 && t.byteAt 4095 == 5) = true := by decide
/-- T3.3.16 -/
theorem test_step_ldB_bounds : (raises (((at0 0xF033).setI 4094).setV 0 255) .boundsError) = true := by decide
/-- T3.3.17 -/
theorem test_step_stRegs : (after (((((at0 0xF255).setI 0x300).setV 0 1).setV 1 2).setV 2 3) fun t =>
    t.byteAt 0x300 == 1 && t.byteAt 0x301 == 2 && t.byteAt 0x302 == 3 && t.byteAt 0x303 == 0 && t.i == 0x300) = true := by decide
/-- T3.3.19 -/
theorem test_step_stRegs_bounds : (raises (((at0 0xFF55).setI 4081).setV 0 1) .boundsError) = true := by decide
/-- T3.3.21 -/
theorem test_step_ldRegs : (after (((((at0 0xF165).setI 0x300).setByte 0x300 0xAA).setByte 0x301 0xBB).setV 2 9) fun t =>
    t.V 0 == 0xAA && t.V 1 == 0xBB && t.V 2 == 9 && t.i == 0x300) = true := by decide
/-- T3.3.23 -/
theorem test_step_ldRegs_bounds : (raises (((at0 0xF165).setI 4095).setByte 4095 0x77) .boundsError) = true := by decide
/-- section 3.6 -/
theorem test_step_unmatched_nop : (after ((at0 0x0000).setDt 3) fun t => t.pc == 0x202 && t.dt == 2 && t.fault == none) = true := by decide
/-- section 3.6 -/
theorem test_step_unmatched_fault : (raises ({ (at0 0x0000).setDt 3 with params := { Params.reference with unknownOpcode := .fault } }) .unknownOpcodeError) = true := by decide
/-- T2.3 -/
theorem test_step_fetch_bounds : (raises ((at0 0x6001).setPc 4095) .boundsError) = true := by decide
/-- T2.6 -/
theorem test_step_halted : (after ({ (at0 0x6001).setDt 9 with fault := some .boundsError }) fun t => t == { (at0 0x6001).setDt 9 with fault := some .boundsError }) = true := by decide

/-- T3.5.7: the waiting status. -/
theorem test_status_waitKey : cycleStatus (at0 0xF20A) = .waitKey := by decide
/-- T3.7.2, T3.7.5, and a second load. -/
theorem test_load : (match load [0x12, 0x00] State.reset with
    | .next t => t.byteAt 0x200 == 0x12 && t.byteAt 0x201 == 0 | _ => false) = true := by decide
theorem test_second_load_refused : (match load [0x12] (State.reset.loaded [0x12, 0x00]) with
    | .refused r => r == .loadOutsideStartup | _ => false) = true := by decide

/-! ### Witnesses: concrete states and operands that meet the hypotheses of each statement that has some -/

/-- The reset state under the policy FAULT. -/
def strict (w : Nat) : State := { at0 w with params := { Params.reference with unknownOpcode := .fault } }

/-- A state in which DRW V0, V1, 1 draws the byte 0xF0 at column x, row y. -/
def sprite (x y : Byte) : State := (((((at0 0xD011).setI 0x300).setByte 0x300 0xF0).setV 0 x).setV 1 y)

/-- A halted state. -/
def haltedState : State := { at0 0x6001 with fault := some .boundsError }

theorem fetches_jp : Fetches (at0 0x1001) (.jp 0x001) := ⟨by decide, rfl⟩
theorem fetches_ret : Fetches (at0 0x00EE) .ret := ⟨by decide, rfl⟩
theorem fetches_ldVxK : Fetches (at0 0xF20A) (.ldVxK 2) := ⟨by decide, rfl⟩
theorem fetches_unmatched : FetchesUnmatched (at0 0x0000) := ⟨by decide, .op0, rfl⟩
theorem fetches_unmatched_strict : FetchesUnmatched (strict 0x0000) := ⟨by decide, .op0, rfl⟩
theorem noKey_reset (w : Nat) : NoKey (at0 w) := by
  intro k hk
  simp [at0, State.withFetchWord, State.placeWord, State.reset, State.resetWith, State.keyDown, hk, State.setByte]

theorem witness_StepKeepsTheInvariant : Inv State.reset ∧ ∃ t, step State.reset = .next t :=
  ⟨⟨by decide, by decide, by decide, fun k hk => absurd hk (Nat.not_lt_zero k.val)⟩, _, rfl⟩

theorem witness_StepRunsTheFetchedInstruction_completes :
    Running (at0 0x1001) ∧ Fetches (at0 0x1001) (.jp 0x001) ∧ (Instr.jp 0x001).wf = true ∧
    ∃ t, exec (.jp 0x001) { at0 0x1001 with pc := (at0 0x1001).pc + 2#16 } = .next t ∧ t.fault = none :=
  ⟨rfl, fetches_jp, rfl, _, rfl, rfl⟩

theorem witness_StepRunsTheFetchedInstruction_raises :
    Running (at0 0x00EE) ∧ Fetches (at0 0x00EE) .ret ∧ Instr.ret.wf = true ∧
    ∃ t, exec .ret { at0 0x00EE with pc := (at0 0x00EE).pc + 2#16 } = .next t ∧ t.fault = some .stackUnderflowError :=
  ⟨rfl, fetches_ret, rfl, _, rfl, rfl⟩

theorem witness_FetchIsBigEndianAndBoundsChecked :
    (Running ((at0 0x6001).setPc 4095) ∧ ((at0 0x6001).setPc 4095).pc.toNat ≥ 4095) ∧
    Running ((at0 0x6001).setPc 4094) ∧ ((at0 0x6001).setPc 4094).pc.toNat ≤ 4094 :=
  ⟨⟨rfl, by decide⟩, rfl, by decide⟩

theorem witness_HaltedCoreChangesNothing : haltedState.fault = some .boundsError := rfl

theorem witness_FaultingCycleIsUndone :
    Running (at0 0x00EE) ∧ ∃ t, step (at0 0x00EE) = .next t ∧ t.fault = some .stackUnderflowError :=
  ⟨rfl, _, rfl, rfl⟩

theorem witness_ErrorsAreRaised_fetch : Running ((at0 0).setPc 4095) ∧ ((at0 0).setPc 4095).pc.toNat ≥ 4095 :=
  ⟨rfl, by decide⟩

theorem witness_ErrorsAreRaised_instruction :
    Running (at0 0x00EE) ∧ Fetches (at0 0x00EE) .ret ∧ Raises (at0 0x00EE) .ret .stackUnderflowError :=
  ⟨rfl, fetches_ret, rfl, rfl⟩

theorem witness_ErrorsAreRaised_bounds : Raises ((at0 0xF033).setI 4094) (.ldB 0) .boundsError ∧
    Raises ((at0 0xFF55).setI 4081) (.stRegs 15) .boundsError ∧ Raises ((at0 0xF165).setI 4095) (.ldRegs 1) .boundsError ∧
    Raises ((at0 0xE39E).setV 3 16) (.skp 3) .boundsError ∧ Raises ((at0 0xE3A1).setV 3 16) (.sknp 3) .boundsError :=
  ⟨⟨rfl, by decide⟩, ⟨rfl, by decide⟩, ⟨rfl, by decide⟩, ⟨rfl, by decide⟩, rfl, by decide⟩

theorem witness_ErrorsAreRaised_policy :
    Running (strict 0) ∧ FetchesUnmatched (strict 0) ∧ (strict 0).params.unknownOpcode = .fault :=
  ⟨rfl, fetches_unmatched_strict, rfl⟩

theorem witness_UnmatchedWordFollowsThePolicy_nop :
    Running (at0 0) ∧ FetchesUnmatched (at0 0) ∧ (at0 0).params.unknownOpcode = .nop := ⟨rfl, fetches_unmatched, rfl⟩

theorem witness_UnmatchedWordFollowsThePolicy_fault :
    Running (strict 0) ∧ FetchesUnmatched (strict 0) ∧ (strict 0).params.unknownOpcode = .fault :=
  ⟨rfl, fetches_unmatched_strict, rfl⟩

theorem witness_TimerDecay_halted : haltedState.fault ≠ none := by decide

theorem witness_TimerDecay_unmatched :
    (at0 0).fault = none ∧ FetchesUnmatched (at0 0) ∧ ∃ t, step (at0 0) = .next t ∧ t.fault = none :=
  ⟨rfl, fetches_unmatched, _, rfl, rfl⟩

theorem witness_TimerDecay_completed :
    (at0 0x1001).fault = none ∧ Fetches (at0 0x1001) (.jp 0x001) ∧ ∃ t, step (at0 0x1001) = .next t ∧ t.fault = none :=
  ⟨rfl, fetches_jp, _, rfl, rfl⟩

theorem witness_StatusReportsTheCycle_fault :
    (at0 0x00EE).fault = none ∧ ∃ t, step (at0 0x00EE) = .next t ∧ t.fault = some .stackUnderflowError := ⟨rfl, _, rfl, rfl⟩

theorem witness_StatusReportsTheCycle_waitKey :
    (at0 0xF20A).fault = none ∧ Fetches (at0 0xF20A) (.ldVxK 2) ∧ NoKey (at0 0xF20A) := ⟨rfl, fetches_ldVxK, noKey_reset _⟩

theorem witness_StatusReportsTheCycle_ok :
    (at0 0x1001).fault = none ∧ (∃ t, step (at0 0x1001) = .next t ∧ t.fault = none) ∧
    ∀ x, ¬ (Fetches (at0 0x1001) (.ldVxK x) ∧ NoKey (at0 0x1001)) :=
  ⟨rfl, ⟨_, rfl, rfl⟩, fun x h => by have := h.1.2.symm.trans fetches_jp.2; simp at this⟩

theorem witness_EachInstructionWritesOnlyItsOwn : ∃ t, exec (.ldB 0) (at0 0xF033) = .next t := ⟨_, rfl⟩

theorem witness_NoStepWritesKeysOrParameters : ∃ t, step haltedState = .next t ∧ haltedState.fault = some .boundsError :=
  ⟨_, rfl, rfl⟩

theorem witness_OnlyRndReadsTheRandomInput :
    (∀ x nn, Instr.cls ≠ .rnd x nn) ∧ ∃ t, exec .cls State.reset = .next t := ⟨fun _ _ h => (by cases h), _, rfl⟩

theorem witness_DecodeOfEncodeIsTheInstruction : (Instr.jpOfs 2 0x210).wf = true := by decide

theorem witness_EncodeOfDecodeIsTheWord : decode 0xB210#16 = .ok (.jpOfs 2 0x210) := rfl

theorem witness_PlacedWordIsFetchedNext : ((at0 0).setPc 4094).pc.toNat ≤ 4094 ∧ 65535 < 65536 := by decide

theorem witness_MemWriteChangesExactlyOneCell :
    ((at0 0).setPc 4094).pc.toNat = 4094 ∧ 4094 < 4095 ∧ ((at0 0).setPc 4094).pc.toNat + 1 = 4095 ∧ 4095 < 4096 := by decide

theorem witness_RetPopsTheReturnAddress :
    { at0 0x00EE with sp := 16 }.sp.val = (15 : Fin 16).val + 1 ∧ { at0 0x00EE with sp := 1 }.sp.val = (0 : Fin 16).val + 1 ∧
    (at0 0x00EE).sp.val = 0 := by decide

theorem witness_CallPushesAndJumps :
    { at0 0x2ABC with sp := 15 }.sp.val = (15 : Fin 16).val ∧ { at0 0x2ABC with sp := 16 }.sp.val = 16 := by decide

theorem witness_CallThenRetComesBack : { at0 0x2ABC with sp := 15 }.sp.val < 16 := by decide

theorem witness_JpOfsDependsOnCompat :
    (2 : Reg).toNat = (0x210 : Addr12).toNat / 256 ∧ (at0 0xB210).params.compat = true ∧
    (corrected (at0 0xB210)).params.compat = false := by decide

theorem witness_flag_register_cases : (1 : Reg) ≠ VF ∧ (2 : Reg) ≠ VF ∧ (0xF : Reg) = VF := by decide

theorem witness_RndAddsTheImmediateToTheRandomByte : ((at0 0xC3FF).supplyRnd 254).rnd = some 254 := rfl

theorem witness_LdBStoresThreeDigits :
    ((at0 0xF033).setI 4093).i.toNat ≤ 4093 ∧ ((at0 0xF033).setI 4094).i.toNat ≥ 4094 := by decide

theorem witness_StRegsStoresTheRegisters :
    ((at0 0xFF55).setI 4080).i.toNat + (15 : Reg).toNat < 4096 ∧
    ((at0 0xFF55).setI 4081).i.toNat + (15 : Reg).toNat ≥ 4096 := by decide

theorem witness_LdRegsLoadsTheRegisters :
    ((at0 0xF065).setI 4095).i.toNat + (0 : Reg).toNat < 4096 ∧
    ((at0 0xF165).setI 4095).i.toNat + (1 : Reg).toNat ≥ 4096 := by decide

/-- T3.4.3: the sprite that spills into the next row fits. -/
theorem witness_DrwTogglesTheSpriteCells_fits : SpriteFits (sprite 62 10) 0 1 1 := by
  refine ⟨fun i hi => ?_, ?_⟩
  · have : i = 0 := by have : i < 1 := hi; omega
    subst this; decide
  · rintro k ⟨i, j, hi, hj, -, rfl⟩
    have : i = 0 := by have : i < 1 := hi; omega
    subst this
    interval_cases j <;> decide

theorem covers_sprite : SpriteCovers (sprite 62 10) 0 1 1 702 :=
  ⟨0, 0, by decide, by decide, by unfold SpriteBitSet; decide, by decide⟩

/-- A covered cell that is lit, a covered cell that is not, and a cell that is not covered by this bit. -/
theorem witness_DrwTogglesTheSpriteCells_cells :
    SpriteCovers (sprite 62 10) 0 1 1 (702 : Fin 2048).val ∧ ((sprite 62 10).toggleCell 702).cell 702 = true ∧
    (sprite 62 10).cell 702 = false := ⟨covers_sprite, by decide, by decide⟩

/-- T3.4.2, COMPAT = 1: the third pixel has no cell. -/
theorem witness_DrwTogglesTheSpriteCells_raises : ¬ SpriteFits (sprite 62 31) 0 1 1 := fun h =>
  absurd (h.2 2048 ⟨0, 2, by decide, by decide, by unfold SpriteBitSet; decide, by decide⟩) (by decide)

theorem witness_DrawingTwiceRestoresTheDisplay : (0 : Reg) ≠ VF ∧ (1 : Reg) ≠ VF ∧ SpriteFits (sprite 62 10) 0 1 1 :=
  ⟨by decide, by decide, witness_DrwTogglesTheSpriteCells_fits⟩

theorem witness_KeySkipsTestTheKey :
    (((at0 0xE39E).setV 3 15).V 3).toNat ≤ 15 ∧ (((at0 0xE39E).setV 3 16).V 3).toNat > 15 := by decide

theorem witness_LdVxKTakesTheHighestKey : Running (press (at0 0xF20A) 15) ∧ Fetches (press (at0 0xF20A) 15) (.ldVxK 2) ∧
    15 < 16 ∧ (press (at0 0xF20A) 15).keyDown 15 = true ∧
    ∀ j, j < 16 → (press (at0 0xF20A) 15).keyDown j = true → j ≤ 15 :=
  ⟨rfl, ⟨by decide, rfl⟩, by decide, by decide, fun j hj _ => by omega⟩

theorem witness_LdVxKWaits : Running (at0 0xF20A) ∧ Fetches (at0 0xF20A) (.ldVxK 2) ∧ NoKey (at0 0xF20A) :=
  ⟨rfl, fetches_ldVxK, noKey_reset _⟩

theorem witness_TimerInstructionsMoveTheTimers :
    (Running (at0 0xF407) ∧ Fetches (at0 0xF407) (.ldVxDt 4)) ∧ (Running (at0 0xF515) ∧ Fetches (at0 0xF515) (.ldDtVx 5)) ∧
    Running (at0 0xF618) ∧ Fetches (at0 0xF618) (.ldStVx 6) :=
  ⟨⟨rfl, by decide, rfl⟩, ⟨rfl, by decide, rfl⟩, rfl, by decide, rfl⟩

theorem witness_TimerInstructions_soundStays :
    (∃ t, step (at0 0x1001) = .next t) ∧ ∀ y, ¬ Fetches (at0 0x1001) (.ldStVx y) :=
  ⟨⟨_, rfl⟩, fun y h => by have := h.2.symm.trans fetches_jp.2; simp at this⟩

/-- The jump at 0x200 to 0x200. -/
theorem witness_FinishedProgramStaysFinished : FinishedNormally (at0 0x1200) := ⟨rfl, 0x200, ⟨by decide, rfl⟩, by decide⟩

theorem witness_LoadCopiesTheRom : State.reset.atStartup = true ∧ (List.replicate 3584 0xAA#8).length ≤ 3584 ∧
    (List.replicate 3585 0xAA#8).length > 3584 := ⟨by decide, by rw [List.length_replicate], by rw [List.length_replicate]; decide⟩

theorem witness_OnlyALateLoadIsRefused : haltedState.atStartup = false := by decide

theorem witness_EnvironmentSuppliesKeysAndRandomByte : Running (at0 0xC310) ∧ Fetches (at0 0xC310) (.rnd 3 0x10) :=
  ⟨rfl, by decide, rfl⟩

end Sys2Proof.Tests
end

