-- ==== Sys2Proof/Proofs/MemoryAccess.lean ====
section
/-! The access primitives (spec/20_memory.md R52, R53): when the two-byte read and the fetch answer, what a store leaves
unchanged and how a later fetch sees it; then the two statements about them. -/

namespace Sys2Proof.Machine

open Sys2Proof.Safety

/-! ### The two-byte read and the fetch -/

theorem State.memReadWord_ok (s : State) (a : Nat) (h : a < 4095) :
    s.memReadWord a = .ok (wordOfBytes (s.byteAt a) (s.byteAt (a + 1))) :=
  if_pos (Nat.succ_lt_succ h)

theorem State.memReadWord_error (s : State) (a : Nat) (h : 4095 ≤ a) : s.memReadWord a = .error .boundsError :=
  if_neg (Nat.not_lt.2 (Nat.succ_le_succ h))

theorem State.fetch_ok (s : State) (h : s.pc.toNat < 4095) :
    s.fetch = .ok (wordOfBytes (s.byteAt s.pc.toNat) (s.byteAt (s.pc.toNat + 1))) :=
  s.memReadWord_ok s.pc.toNat h

theorem wordOfBytes_toNat_div (hi lo : Byte) : (wordOfBytes hi lo).toNat / 256 = hi.toNat := by
  have hlo := lo.isLt
  rw [wordOfBytes_toNat]
  omega

theorem wordOfBytes_toNat_mod (hi lo : Byte) : (wordOfBytes hi lo).toNat % 256 = lo.toNat := by
  have hlo := lo.isLt
  rw [wordOfBytes_toNat]
  omega

/-! ### A store -/

theorem State.byteAt_setByte_same (s : State) (a : Nat) (b : Byte) : (s.setByte a b).byteAt a = b := by
  rw [State.byteAt_setByte, if_pos rfl]

theorem State.byteAt_setByte_ne (s : State) (a n : Nat) (b : Byte) (h : n ≠ a) :
    (s.setByte a b).byteAt n = s.byteAt n := by
  rw [State.byteAt_setByte, if_neg h]

/-- A store changes no piece of the state but memory, and no register. -/
theorem State.setByte_frame (s : State) (a : Nat) (b : Byte) : Frame [.memory] [] s (s.setByte a b) := by
  refine ⟨fun p hp => ?_, fun r _ => s.setByte_V a b r⟩
  cases p with
  | memory => exact absurd (List.mem_singleton_self _) hp
  | stack | random => exact ⟨rfl, by simp⟩
  | display | pc | index | delay | sound | keys | fault | params => simp [Part.same]

/-- A fetch from the stored address sees the byte as the high half of the word (R54, R61). -/
theorem State.fetch_setByte_high (s : State) (a : Nat) (b : Byte) (hpc : s.pc.toNat = a) (ha : a < 4095) :
    ∃ w : Word, (s.setByte a b).fetch = .ok w ∧ w.toNat / 256 = b.toNat := by
  subst hpc
  refine ⟨_, State.fetch_ok _ ha, ?_⟩
  rw [wordOfBytes_toNat_div, State.setByte_pc, State.byteAt_setByte_same]

/-- A fetch from just below the stored address sees the byte as the low half of the word (R54, R61). -/
theorem State.fetch_setByte_low (s : State) (a : Nat) (b : Byte) (hpc : s.pc.toNat + 1 = a) (ha : a < 4096) :
    ∃ w : Word, (s.setByte a b).fetch = .ok w ∧ w.toNat % 256 = b.toNat := by
  subst hpc
  refine ⟨_, State.fetch_ok _ (Nat.lt_of_succ_lt_succ ha), ?_⟩
  rw [wordOfBytes_toNat_mod, State.setByte_pc, State.byteAt_setByte_same]

/-! ### The statements -/

/-- Settles O24: in bounds the write is the store `setByte`, so each clause is what the lemmas above say of a store. -/
theorem memWriteChangesExactlyOneCell : Obligations.MemWriteChangesExactlyOneCell := by
  intro s a b
  refine ⟨fun ha => ⟨s.setByte a b, s.memWrite_ok a b ha, ?reads, ?others, s.setByte_frame a b, ?high, ?low⟩,
    s.memWrite_error a b⟩
  case reads => rw [State.memRead_ok _ a ha, State.byteAt_setByte_same]
  case others => exact fun n hn => s.byteAt_setByte_ne a n b hn
  case high => exact s.fetch_setByte_high a b
  case low => exact fun hpc => s.fetch_setByte_low a b hpc ha

/-- Settles O23: one clause per outcome of the one-byte and of the two-byte read. -/
theorem memReadChecksItsBounds : Obligations.MemReadChecksItsBounds :=
  fun s a => ⟨s.memRead_ok a, s.memRead_error a, s.memReadWord_error a,
    fun h => ⟨_, s.memReadWord_ok a h, wordOfBytes_toNat _ _⟩⟩

end Sys2Proof.Machine
end

