-- ==== Sys2Proof/Proofs/JumpsAndSkips.lean ====
section
/-! Jumps and conditional skips (spec/41_control_flow.md R111, R113 to R116): the words that decode to them, the two
operations they run, both of which change PC alone, and what each of them makes of PC; then the three statements. -/

namespace Sys2Proof.Machine

open Sys2Proof.Safety

/-! ### The words (spec/30_encoding.md R73, R75) -/

theorem decode_jp (nnn : Addr12) : decode (0x1#4 ++ nnn) = .ok (.jp nnn) := by
  simp [decode, fieldOP_formatNNN, fieldNNN_formatNNN]

theorem decode_seImm (x : Reg) (nn : Byte) : decode (0x3#4 ++ x ++ nn) = .ok (.seImm x nn) := by
  simp [decode, fieldOP_formatXNN, fieldX_formatXNN, fieldNN_formatXNN]

theorem decode_sneImm (x : Reg) (nn : Byte) : decode (0x4#4 ++ x ++ nn) = .ok (.sneImm x nn) := by
  simp [decode, fieldOP_formatXNN, fieldX_formatXNN, fieldNN_formatXNN]

theorem decode_seReg (x y : Reg) : decode (0x5#4 ++ x ++ y ++ 0x0#4) = .ok (.seReg x y) := by
  simp [decode, fieldOP_formatXYN, fieldX_formatXYN, fieldY_formatXYN, fieldN_formatXYN]

theorem decode_sneReg (x y : Reg) : decode (0x9#4 ++ x ++ y ++ 0x0#4) = .ok (.sneReg x y) := by
  simp [decode, fieldOP_formatXYN, fieldX_formatXYN, fieldY_formatXYN, fieldN_formatXYN]

/-! ### The operations -/

theorem immAddr_toNat (nnn : Addr12) : (immAddr nnn).toNat = nnn.toNat :=
  BitVec.toNat_setWidth_of_le (by decide)

theorem State.setPc_frame (s : State) (target : Word) : Frame [.pc] [] s (s.setPc target) := by
  refine ⟨fun p hp => ?_, fun r _ => s.setPc_V target r⟩
  cases p with
  | pc => exact absurd (List.mem_singleton_self _) hp
  | stack | random => exact ⟨rfl, by simp⟩
  | memory | display | index | delay | sound | keys | fault | params => simp [Part.same]

/-- Taken or not, a skip is an assignment of PC. -/
theorem State.skipIf_eq_setPc (s : State) (c : Bool) :
    s.skipIf c = s.setPc (if c then s.pc + 2#16 else s.pc) := by
  cases c with
  | true => rfl
  | false => rfl

theorem State.skipIf_frame (s : State) (c : Bool) : Frame [.pc] [] s (s.skipIf c) := by
  rw [State.skipIf_eq_setPc]
  exact s.setPc_frame _

theorem State.skipIf_beq_pc (s : State) (a b : Byte) :
    (s.skipIf (a == b)).pc = if a = b then s.pc + 2#16 else s.pc := by
  simp only [State.skipIf_pc, beq_iff_eq]

theorem State.skipIf_bne_pc (s : State) (a b : Byte) :
    (s.skipIf (a != b)).pc = if a = b then s.pc else s.pc + 2#16 := by
  simp only [State.skipIf_pc, bne_iff_ne, ne_eq, ite_not]

/-! ### The statements -/

/-- Settles O26: JP is the assignment of its zero-extended address to PC. -/
theorem jpJumpsToItsAddress : Obligations.JpJumpsToItsAddress :=
  fun nnn s => ⟨decode_jp nnn, s.setPc (immAddr nnn), rfl, immAddr_toNat nnn, s.setPc_frame _⟩

/-- Settles O29: the two instructions are one skip, under the comparison with NN and under its negation. -/
theorem immediateSkipsTestTheirCondition : Obligations.ImmediateSkipsTestTheirCondition :=
  fun x nn s => ⟨decode_seImm x nn, decode_sneImm x nn,
    ⟨s.skipIf (s.V x == nn), rfl, s.skipIf_beq_pc _ _, s.skipIf_frame _⟩,
    ⟨s.skipIf (s.V x != nn), rfl, s.skipIf_bne_pc _ _, s.skipIf_frame _⟩⟩

/-- Settles O30: the same skip, under the comparison of two registers and under its negation. -/
theorem registerSkipsTestTheirCondition : Obligations.RegisterSkipsTestTheirCondition :=
  fun x y s => ⟨decode_seReg x y, decode_sneReg x y,
    ⟨s.skipIf (s.V x == s.V y), rfl, s.skipIf_beq_pc _ _, s.skipIf_frame _⟩,
    ⟨s.skipIf (s.V x != s.V y), rfl, s.skipIf_bne_pc _ _, s.skipIf_frame _⟩⟩

end Sys2Proof.Machine
end

