-- ==== Sys2Proof/Proofs/RegisterArithmetic.lean ====
section
/-! Register load, addition and logic (spec/42_alu.md R130 to R136): how two frames compose, the words that decode to these
instructions, the frame of a register write, and the numbers of the sums and of the carry; then the five statements. -/

namespace Sys2Proof.Safety

open Sys2Proof.Machine

/-! ### Frames compose -/

theorem Part.same_trans {s t u : State} (p : Part) (h : p.same s t) (g : p.same t u) : p.same s u := by
  cases p with
  | pc | index | delay | sound | fault | params => exact Eq.trans g h
  | memory | display | keys => exact fun k => (g k).trans (h k)
  | stack => exact ⟨g.1.trans h.1, fun k => (g.2 k).trans (h.2 k)⟩
  | random => exact ⟨g.1.trans h.1, g.2.trans h.2⟩

theorem Frame.trans {ps qs : List Part} {rs rs' : List Reg} {s t u : State} (h : Frame ps rs s t)
    (g : Frame qs rs' t u) : Frame (ps ++ qs) (rs ++ rs') s u := by
  obtain ⟨hpart, hreg⟩ := h
  obtain ⟨gpart, greg⟩ := g
  refine ⟨fun p hp => ?_, fun r hr => ?_⟩
  · rw [List.mem_append, not_or] at hp
    exact p.same_trans (hpart p hp.1) (gpart p hp.2)
  · rw [List.mem_append, not_or] at hr
    exact (greg r hr.2).trans (hreg r hr.1)

end Sys2Proof.Safety

namespace Sys2Proof.Machine

open Sys2Proof.Safety

/-! ### The words (spec/30_encoding.md R73, R75) -/

theorem decode_ldImm (x : Reg) (nn : Byte) : decode (0x6#4 ++ x ++ nn) = .ok (.ldImm x nn) := by
  simp [decode, fieldOP_formatXNN, fieldX_formatXNN, fieldNN_formatXNN]

theorem decode_addImm (x : Reg) (nn : Byte) : decode (0x7#4 ++ x ++ nn) = .ok (.addImm x nn) := by
  simp [decode, fieldOP_formatXNN, fieldX_formatXNN, fieldNN_formatXNN]

/-- In group 8 the decoder's second level decides, on bits 3:0. -/
theorem decode_group8 (x y : Reg) (n : Nibble) : decode (0x8#4 ++ x ++ y ++ n) = decodeOp8 x y n := by
  simp [decode, fieldOP_formatXYN, fieldX_formatXYN, fieldY_formatXYN, fieldN_formatXYN]

/-! ### The operations -/

/-- A register write changes no piece of the state, and no other register. -/
theorem State.setV_frame (s : State) (x : Reg) (b : Byte) : Frame [] [x] s (s.setV x b) := by
  refine ⟨fun p _ => ?_, fun r hr => s.V_setV_ne x r b (List.ne_of_not_mem_cons hr)⟩
  cases p with
  | stack | random => exact ⟨rfl, by simp⟩
  | memory | display | pc | index | delay | sound | keys | fault | params => simp [Part.same]

theorem State.setVF_frame (s : State) (b : Byte) : Frame [] [VF] s (s.setVF b) := s.setV_frame VF b

theorem State.V_setVF_same (s : State) (b : Byte) : (s.setVF b).V VF = b := s.V_setV_same VF b

theorem State.V_setVF_ne (s : State) (r : Reg) (b : Byte) (h : r ≠ VF) : (s.setVF b).V r = s.V r := s.V_setV_ne VF r b h

theorem flagOf_decide_toNat (p : Prop) [Decidable p] : (flagOf (decide p)).toNat = if p then 1 else 0 := by
  by_cases h : p
  · rw [decide_eq_true h, if_pos h]
    rfl
  · rw [decide_eq_false h, if_neg h]
    rfl

theorem carryFlag_toNat (a b : Byte) : (carryFlag a b).toNat = if a.toNat + b.toNat > 255 then 1 else 0 :=
  flagOf_decide_toNat (exactSum a b > 255)

/-! ### The statements -/

/-- Settles O32: LD_IMM is the write of NN to V[X]. -/
theorem ldImmLoadsTheImmediate : Obligations.LdImmLoadsTheImmediate :=
  fun x nn s => ⟨decode_ldImm x nn, s.setV x nn, rfl, s.V_setV_same x nn, s.setV_frame x nn⟩

/-- Settles O33: the one write is of the byte sum, whose number is the sum modulo 256. -/
theorem addImmAddsWithoutFlag : Obligations.AddImmAddsWithoutFlag := by
  intro x nn s
  refine ⟨decode_addImm x nn, s.setV x (s.V x + nn), rfl, ?_, s.setV_frame x _⟩
  rw [State.V_setV_same, BitVec.toNat_add]

/-- Settles O34: LD_REG is the write of V[Y] to V[X]. -/
theorem ldRegCopies : Obligations.LdRegCopies :=
  fun x y s => ⟨decode_group8 x y 0x0#4, s.setV x (s.V y), rfl, s.V_setV_same x _, s.setV_frame x _⟩

/-- Settles O35: each of the three is one register write, of a byte that is read bit by bit. -/
theorem logicWorksBitwiseWithoutFlag : Obligations.LogicWorksBitwiseWithoutFlag := by
  intro x y s
  refine ⟨decode_group8 x y 0x1#4, decode_group8 x y 0x2#4, decode_group8 x y 0x3#4,
    ⟨s.setV x (s.V x ||| s.V y), rfl, s.setV_frame x _, fun k _ => ?or⟩,
    ⟨s.setV x (s.V x &&& s.V y), rfl, s.setV_frame x _, fun k _ => ?and⟩,
    ⟨s.setV x (s.V x ^^^ s.V y), rfl, s.setV_frame x _, fun k _ => ?xor⟩⟩
  case or => rw [State.V_setV_same, BitVec.getLsbD_or]
  case and => rw [State.V_setV_same, BitVec.getLsbD_and]
  case xor => rw [State.V_setV_same, BitVec.getLsbD_xor]

/-- Settles O36: the carry is written after the sum, so VF reads as the carry for every X and V[X] as the sum where X is
not F. -/
theorem addRegAddsAndSetsTheCarry : Obligations.AddRegAddsAndSetsTheCarry := by
  intro x y s
  refine ⟨decode_group8 x y 0x4#4, _, rfl, fun hx => ?sum, ?carry, (s.setV_frame x _).trans (State.setVF_frame _ _)⟩
  case sum => rw [State.V_setVF_ne _ x _ hx, State.V_setV_same, BitVec.toNat_ofNat, exactSum]
  case carry => rw [State.V_setVF_same, carryFlag_toNat]

end Sys2Proof.Machine
end

