-- ==== Sys2Proof/Proofs/IndexRegister.lean ====
section
/-! Assignments of the index register (spec/43_index_memory.md R150, R152): the words that decode to them, the frame of an
assignment of I, and the number of a glyph's address; then the two statements. -/

namespace Sys2Proof.Machine

open Sys2Proof.Safety

/-! ### The words (spec/30_encoding.md R73, R75) -/

theorem decode_ldI (nnn : Addr12) : decode (0xA#4 ++ nnn) = .ok (.ldI nnn) := by
  simp [decode, fieldOP_formatNNN, fieldNNN_formatNNN]

/-- In group F the decoder's second level decides, on bits 7:0. -/
theorem decode_groupF (x : Reg) (nn : Byte) : decode (0xF#4 ++ x ++ nn) = decodeOpF x nn := by
  simp [decode, fieldOP_formatXNN, fieldX_formatXNN, fieldNN_formatXNN]

/-! ### The operations -/

/-- An assignment of I changes no other piece of the state, and no register. -/
theorem State.setI_frame (s : State) (w : Word) : Frame [.index] [] s (s.setI w) := by
  refine ⟨fun p hp => ?_, fun r _ => s.setI_V w r⟩
  cases p with
  | index => exact absurd (List.mem_singleton_self _) hp
  | stack | random => exact ⟨rfl, by simp⟩
  | memory | display | pc | delay | sound | keys | fault | params => simp [Part.same]

/-- No glyph's address wraps: five times a byte is at most 1275. -/
theorem glyphAddr_toNat (b : Byte) : (glyphAddr b).toNat = b.toNat * 5 := by
  have hb := b.isLt
  rw [glyphAddr, BitVec.toNat_ofNat]
  omega

/-! ### The statements -/

/-- Settles O42: LD_I is the assignment of its zero-extended address to I. -/
theorem ldILoadsTheAddress : Obligations.LdILoadsTheAddress :=
  fun nnn s => ⟨decode_ldI nnn, s.setI (immAddr nnn), rfl, immAddr_toNat nnn, s.setI_frame _⟩

/-- Settles O44: LD_F is the assignment of the glyph's address to I, and that address does not wrap. -/
theorem ldFAddressesTheGlyph : Obligations.LdFAddressesTheGlyph :=
  fun x s => ⟨decode_groupF x 0x29#8, s.setI (glyphAddr (s.V x)), rfl, glyphAddr_toNat _, s.setI_frame _⟩

end Sys2Proof.Machine
end

