-- ==== Sys2Proof/Proofs/DisplayClear.lean ====
section
/-! Clearing the display (spec/44_display.md R170): the fixed word that decodes to CLS, and the frame of the one operation
it runs; then the statement. -/

namespace Sys2Proof.Machine

open Sys2Proof.Safety

/-- In group 0 the decoder's second level compares the whole word (spec/30_encoding.md R73). -/
theorem decode_cls : decode 0x00E0#16 = .ok .cls := by
  have group0 : fieldOP 0x00E0#16 = 0x0#4 := by decide
  rw [decode, if_pos group0, decodeOp0, if_pos rfl]

/-- Clearing the display changes no other piece of the state, and no register. -/
theorem State.clearDisplay_frame (s : State) : Frame [.display] [] s s.clearDisplay := by
  refine ⟨fun p hp => ?_, fun r _ => s.clearDisplay_V r⟩
  cases p with
  | display => exact absurd (List.mem_singleton_self _) hp
  | stack | random => exact ⟨rfl, by simp⟩
  | memory | pc | index | delay | sound | keys | fault | params => simp [Part.same]

/-- Settles O48: CLS is the clearing of the display, after which every cell reads 0. -/
theorem clsClearsEveryCell : Obligations.ClsClearsEveryCell :=
  ⟨decode_cls, fun s => ⟨s.clearDisplay, rfl, s.cell_clearDisplay, s.clearDisplay_frame⟩⟩

end Sys2Proof.Machine
end

