-- ==== Sys2Proof/Proofs/Timers.lean ====
section
/-! The timers (spec/45_keys_timers.md R183 to R185; spec/40_cycle.md R96). Only FX18 writes ST: said once of `exec`, for all
34 instructions, and carried from there through the cycle. A fetched instruction that does not raise gives the end of its
cycle, at which DT is decayed. From these two facts, the statement. -/

namespace Sys2Proof.Machine

open Sys2Proof.Safety

/-! ### The timer assignments -/

/-- An assignment of DT changes no other piece of the state, and no register. -/
theorem State.setDt_frame (s : State) (b : Byte) : Frame [.delay] [] s (s.setDt b) := by
  refine ⟨fun p hp => ?_, fun r _ => s.setDt_V b r⟩
  cases p with
  | delay => exact absurd (List.mem_singleton_self _) hp
  | stack | random => exact ⟨rfl, by simp⟩
  | memory | display | pc | index | sound | keys | fault | params => simp [Part.same]

/-- An assignment of ST changes no other piece of the state, and no register. -/
theorem State.setSt_frame (s : State) (b : Byte) : Frame [.sound] [] s (s.setSt b) := by
  refine ⟨fun p hp => ?_, fun r _ => s.setSt_V b r⟩
  cases p with
  | sound => exact absurd (List.mem_singleton_self _) hp
  | stack | random => exact ⟨rfl, by simp⟩
  | memory | display | pc | index | delay | keys | fault | params => simp [Part.same]

/-! ### The sound timer under the operations that can raise -/

/-- A list of stores touches memory alone, or raises. -/
theorem State.memWriteAll_cases (s : State) (a : Nat) (bs : List Byte) :
    (∃ t, s.memWriteAll a bs = .ok t ∧ OnlyMem s t) ∨ s.memWriteAll a bs = .error .boundsError := by
  rcases eq_or_ne bs [] with rfl | nonempty
  · exact .inl ⟨s, rfl, s.mem, rfl⟩
  · rcases le_or_gt (a + bs.length) 4096 with fits | outside
    · obtain ⟨t, stored, only, -⟩ := State.memWriteAll_ok bs s a fits
      exact .inl ⟨t, stored, only⟩
    · exact .inr (State.memWriteAll_error bs s a nonempty outside)

/-- A list of loads touches the V registers alone, or raises. -/
theorem State.loadEach_cases (s : State) (a : Nat) (ks : List Reg) :
    (∃ t, s.loadEach a ks = .ok t ∧ OnlyV s t) ∨ s.loadEach a ks = .error .boundsError := by
  by_cases fits : ∀ k ∈ ks, a + k.toNat < 4096
  · obtain ⟨t, loaded, only, -⟩ := State.loadEach_ok ks s a fits
    exact .inl ⟨t, loaded, only⟩
  · push Not at fits
    exact .inr (State.loadEach_error ks s a fits)

theorem OnlyMem.st {s t : State} (h : OnlyMem s t) : t.st = s.st := by
  obtain ⟨m, rfl⟩ := h
  rfl

theorem OnlyV.st {s t : State} (h : OnlyV s t) : t.st = s.st := by
  obtain ⟨v, rfl⟩ := h
  rfl

theorem OnlyDrawn.st {s t : State} (h : OnlyDrawn s t) : t.st = s.st := by
  obtain ⟨⟨d, v, rfl⟩, -, -⟩ := h
  rfl

/-- An instruction of several writes keeps ST where they do, and where they raise. -/
theorem commit_keeps_st {s : State} {r : Except ErrorKind State} {e : ErrorKind}
    (h : (∃ t, r = .ok t ∧ t.st = s.st) ∨ r = .error e) : ∃ u, commit s r = .next u ∧ u.st = s.st := by
  rcases h with ⟨t, rfl, kept⟩ | rfl
  · exact ⟨t, rfl, kept⟩
  · exact ⟨s.withFault e, rfl, rfl⟩

theorem execRet_keeps_st (s : State) : ∃ t, execRet s = .next t ∧ t.st = s.st := by
  rcases s.popPc_cases with ⟨_, k, -, popped⟩ | ⟨-, raised⟩
  · exact commit_keeps_st (e := .stackUnderflowError) (.inl ⟨_, popped, rfl⟩)
  · exact commit_keeps_st (.inr raised)

theorem execCall_keeps_st (nnn : Addr12) (s : State) : ∃ t, execCall nnn s = .next t ∧ t.st = s.st := by
  unfold execCall
  rcases s.push_cases s.pc with ⟨_, pushed⟩ | ⟨-, raised⟩
  · rw [pushed]
    exact ⟨_, rfl, rfl⟩
  · rw [raised]
    exact ⟨_, rfl, rfl⟩

/-- A skip on a key test keeps ST, and so does the raise that a key number above 15 answers. -/
theorem execSkp_keeps_st (x : Reg) (s : State) : ∃ t, execSkp x s = .next t ∧ t.st = s.st := by
  unfold execSkp
  cases keyNumber (s.V x) with
  | ok k => exact ⟨_, rfl, s.skipIf_st _⟩
  | error e => exact ⟨_, rfl, rfl⟩

theorem execSknp_keeps_st (x : Reg) (s : State) : ∃ t, execSknp x s = .next t ∧ t.st = s.st := by
  unfold execSknp
  cases keyNumber (s.V x) with
  | ok k => exact ⟨_, rfl, s.skipIf_st _⟩
  | error e => exact ⟨_, rfl, rfl⟩

theorem execLdVxK_keeps_st (x : Reg) (s : State) : ∃ t, execLdVxK x s = .next t ∧ t.st = s.st := by
  unfold execLdVxK
  cases s.highestKey with
  | some k => exact ⟨_, rfl, rfl⟩
  | none => exact ⟨_, rfl, rfl⟩

theorem execJpOfs_keeps_st (x : Reg) (nnn : Addr12) (s : State) : ∃ t, execJpOfs x nnn s = .next t ∧ t.st = s.st := by
  unfold execJpOfs
  split
  · exact ⟨_, rfl, rfl⟩
  · exact ⟨_, rfl, rfl⟩

theorem commit_memWriteAll_keeps_st (s : State) (a : Nat) (bs : List Byte) :
    ∃ t, commit s (s.memWriteAll a bs) = .next t ∧ t.st = s.st :=
  commit_keeps_st ((s.memWriteAll_cases a bs).imp_left fun ⟨t, stored, only⟩ => ⟨t, stored, only.st⟩)

theorem execLdRegs_keeps_st (x : Reg) (s : State) : ∃ t, execLdRegs x s = .next t ∧ t.st = s.st :=
  commit_keeps_st ((s.loadEach_cases _ _).imp_left fun ⟨t, loaded, only⟩ => ⟨t, loaded, only.st⟩)

theorem execDrw_keeps_st (x y : Reg) (n : Nibble) (s : State) : ∃ t, execDrw x y n s = .next t ∧ t.st = s.st :=
  commit_keeps_st ((State.drawRows_cases _ _ _ _).imp_left fun ⟨t, drawn, only⟩ => ⟨t, drawn, only.st⟩)

/-! ### The sound timer through the cycle -/

/-- Every instruction answers, with ST as it was or, for FX18, V[X] (R185). -/
theorem exec_st (i : Instr) (s : State) : ∃ t, exec i s = .next t ∧ t.st = soundAfter s i := by
  cases i with
  | cls | jp | ldImm | addImm | ldReg | or | and | xor | addReg | sub | shr | subn | shl | ldI | rnd | ldVxDt
  | ldDtVx | ldStVx | ldF => exact ⟨_, rfl, rfl⟩
  | seImm | sneImm | seReg | sneReg => exact ⟨_, rfl, s.skipIf_st _⟩
  | addI => exact ⟨_, rfl, State.raiseVFIf_st _ _⟩
  | jpOfs x nnn => exact execJpOfs_keeps_st x nnn s
  | ret => exact execRet_keeps_st s
  | call nnn => exact execCall_keeps_st nnn s
  | skp x => exact execSkp_keeps_st x s
  | sknp x => exact execSknp_keeps_st x s
  | ldVxK x => exact execLdVxK_keeps_st x s
  | drw x y n => exact execDrw_keeps_st x y n s
  | ldB | stRegs => exact commit_memWriteAll_keeps_st s _ _
  | ldRegs x => exact execLdRegs_keeps_st x s

theorem soundAfter_of_ne_ldStVx (s : State) (i : Instr) (h : ∀ x, i ≠ .ldStVx x) : soundAfter s i = s.st := by
  unfold soundAfter
  split
  · next x => exact absurd rfl (h x)
  · rfl

theorem execUnmatched_keeps_st (s : State) : ∃ t, execUnmatched s = .next t ∧ t.st = s.st := by
  unfold execUnmatched
  split
  · exact ⟨s, rfl, rfl⟩
  · exact ⟨_, rfl, rfl⟩

/-- The execute stage keeps ST unless the word is an FX18. -/
theorem execWord_keeps_st (w : Word) (s : State) (h : ∀ x, decode w ≠ .ok (.ldStVx x)) :
    ∃ t, execWord w s = .next t ∧ t.st = s.st := by
  unfold execWord
  cases decoded : decode w with
  | error why => exact execUnmatched_keeps_st s
  | ok i =>
    obtain ⟨t, next, sound⟩ := exec_st i s
    exact ⟨t, next, sound.trans (soundAfter_of_ne_ldStVx s i fun x e => h x (by rw [decoded, e]))⟩

theorem endCycle_st (s : State) : (endCycle s).st = s.st := by
  rw [endCycle, State.dropRnd_st, timerDecay_st]

/-- Neither the end of a cycle nor its undoing changes an ST that the execute stage kept. -/
theorem finishCycle_keeps_st {s u : State} (h : u.st = s.st) : ∃ t, finishCycle s (.next u) = .next t ∧ t.st = s.st := by
  rcases finishCycle_next s u with ⟨-, ended⟩ | ⟨e, -, undone⟩
  · exact ⟨_, ended, (endCycle_st u).trans h⟩
  · exact ⟨_, undone, rfl⟩

/-- A step of anything but FX18 keeps ST (R185). -/
theorem step_keeps_st (s : State) (h : ∀ x, ¬ Fetches s (.ldStVx x)) : ∃ t, step s = .next t ∧ t.st = s.st := by
  rcases cycle_cases s with ⟨e, -, halted⟩ | ⟨-, -, raised⟩ | ⟨-, inBounds, runs⟩
  · exact ⟨s, halted, rfl⟩
  · exact ⟨_, raised, rfl⟩
  · obtain ⟨u, next, kept⟩ := execWord_keeps_st (wordAtPc s) s.pastFetch fun x decoded => h x ⟨inBounds, decoded⟩
    obtain ⟨t, finished, sound⟩ := finishCycle_keeps_st (s := s) kept
    exact ⟨t, runs.trans ((congrArg (finishCycle s) next).trans finished), sound⟩

/-! ### The end of a completed cycle -/

/-- A fetched instruction that answers with the latch clear completes its cycle. -/
theorem step_of_exec {s u : State} {i : Instr} (run : Running s) (fetched : Fetches s i)
    (next : exec i s.pastFetch = .next u) (clear : u.fault = none) : step s = .next (endCycle u) := by
  obtain ⟨inBounds, decoded⟩ := fetched
  have fetch : s.fetch = .ok (wordAtPc s) := s.fetch_ok (Nat.lt_succ_of_le inBounds)
  have executed : execWord (wordAtPc s) s.pastFetch = .next u := by simp only [execWord, decoded, next]
  have running : s.fault = none := run
  simp only [step, cycle, running, fetch, executed, finishCycle, clear]

theorem endCycle_V (s : State) (r : Reg) : (endCycle s).V r = s.V r := by
  rw [endCycle, State.dropRnd_V, timerDecay_V]

/-- The decay of the cycle's end is one count less, and 0 from 0 (spec/40_cycle.md R96). -/
theorem endCycle_dt (s : State) : (endCycle s).dt = decayed s.dt := by
  rw [endCycle, State.dropRnd_dt, timerDecay_dt, decayed]
  by_cases zero : s.dt = 0#8
  · rw [if_pos zero, zero]
    rfl
  · have positive : s.dt.toNat > 0 := Nat.pos_of_ne_zero fun h => zero (BitVec.eq_of_toNat_eq h)
    rw [if_neg zero, if_pos positive]

/-! ### The statement -/

/-- Settles O53: each instruction is one assignment, the cycle's end decays the DT it leaves, and a step of anything but FX18
keeps ST. -/
theorem timerInstructionsMoveTheTimers : Obligations.TimerInstructionsMoveTheTimers := by
  intro x s
  refine ⟨decode_groupF x 0x07#8, decode_groupF x 0x15#8, decode_groupF x 0x18#8,
    ⟨s.setV x s.dt, rfl, s.V_setV_same x _, s.setV_frame x _⟩, ⟨s.setDt (s.V x), rfl, rfl, s.setDt_frame _⟩,
    ⟨s.setSt (s.V x), rfl, rfl, s.setSt_frame _⟩, ?cycleFX07, ?cycleFX15, ?cycleFX18, ?soundStays⟩
  case cycleFX07 =>
    intro run fetched
    exact ⟨_, step_of_exec run fetched rfl run, (endCycle_V _ x).trans (State.V_setV_same _ x _), endCycle_dt _⟩
  case cycleFX15 => exact fun run fetched => ⟨_, step_of_exec run fetched rfl run, endCycle_dt _⟩
  case cycleFX18 => exact fun run fetched => ⟨_, step_of_exec run fetched rfl run, endCycle_st _, endCycle_dt _⟩
  case soundStays =>
    intro t answered other
    obtain ⟨u, next, kept⟩ := step_keeps_st s other
    obtain rfl : u = t := Host.Outcome.next.inj (next.symm.trans answered)
    exact kept

end Sys2Proof.Machine
end

