-- ==== Sys2Proof/Proofs/Encoding.lean ====
section
/-! The decoder and the encoder are inverse to each other (spec/30_encoding.md R71 to R77, R82). The decoder is said once per
value of OP, as a function of the fields below it; from that follow the decoding of an encoded instruction, the encoding of a
decoded one, the rows a word matches, and the words that match none. -/

namespace Sys2Proof.Machine

/-! ### The decoder, by the value of OP (R73, R75) -/

section
variable {w : Word}

theorem decode_op0 (h : fieldOP w = 0x0#4) : decode w = decodeOp0 w := by simp [decode, h]
theorem decode_op1 (h : fieldOP w = 0x1#4) : decode w = .ok (.jp (fieldNNN w)) := by simp [decode, h]
theorem decode_op2 (h : fieldOP w = 0x2#4) : decode w = .ok (.call (fieldNNN w)) := by simp [decode, h]
theorem decode_op3 (h : fieldOP w = 0x3#4) : decode w = .ok (.seImm (fieldX w) (fieldNN w)) := by simp [decode, h]
theorem decode_op4 (h : fieldOP w = 0x4#4) : decode w = .ok (.sneImm (fieldX w) (fieldNN w)) := by simp [decode, h]
theorem decode_op5 (h : fieldOP w = 0x5#4) :
    decode w = if fieldN w = 0x0#4 then .ok (.seReg (fieldX w) (fieldY w)) else .error .op5 := by simp [decode, h]
theorem decode_op6 (h : fieldOP w = 0x6#4) : decode w = .ok (.ldImm (fieldX w) (fieldNN w)) := by simp [decode, h]
theorem decode_op7 (h : fieldOP w = 0x7#4) : decode w = .ok (.addImm (fieldX w) (fieldNN w)) := by simp [decode, h]
theorem decode_op8 (h : fieldOP w = 0x8#4) : decode w = decodeOp8 (fieldX w) (fieldY w) (fieldN w) := by
  simp [decode, h]
theorem decode_op9 (h : fieldOP w = 0x9#4) :
    decode w = if fieldN w = 0x0#4 then .ok (.sneReg (fieldX w) (fieldY w)) else .error .op9 := by simp [decode, h]
theorem decode_opA (h : fieldOP w = 0xA#4) : decode w = .ok (.ldI (fieldNNN w)) := by simp [decode, h]
theorem decode_opB (h : fieldOP w = 0xB#4) : decode w = .ok (.jpOfs (fieldX w) (fieldNNN w)) := by simp [decode, h]
theorem decode_opC (h : fieldOP w = 0xC#4) : decode w = .ok (.rnd (fieldX w) (fieldNN w)) := by simp [decode, h]
theorem decode_opD (h : fieldOP w = 0xD#4) : decode w = .ok (.drw (fieldX w) (fieldY w) (fieldN w)) := by
  simp [decode, h]
theorem decode_opE (h : fieldOP w = 0xE#4) : decode w = decodeOpE (fieldX w) (fieldNN w) := by simp [decode, h]
theorem decode_opF (h : fieldOP w = 0xF#4) : decode w = decodeOpF (fieldX w) (fieldNN w) := by simp [decode, h]

end

/-! ### Decoding an encoded instruction -/

theorem decode_ret : decode 0x00EE#16 = .ok .ret := by decide

theorem decode_call (nnn : Addr12) : decode (0x2#4 ++ nnn) = .ok (.call nnn) := by
  rw [decode_op2 (fieldOP_formatNNN _ _), fieldNNN_formatNNN]

/-- The register of BNNN is the top nibble of its address (R71). -/
theorem decode_jpOfs (nnn : Addr12) : decode (0xB#4 ++ nnn) = .ok (.jpOfs (nnn.extractLsb 11 8) nnn) := by
  rw [decode_opB (fieldOP_formatNNN _ _), fieldNNN_formatNNN, fieldX_formatNNN]

theorem decode_rnd (x : Reg) (nn : Byte) : decode (0xC#4 ++ x ++ nn) = .ok (.rnd x nn) := by
  rw [decode_opC (fieldOP_formatXNN _ _ _), fieldX_formatXNN, fieldNN_formatXNN]

theorem decode_drw (x y : Reg) (n : Nibble) : decode (0xD#4 ++ x ++ y ++ n) = .ok (.drw x y n) := by
  rw [decode_opD (fieldOP_formatXYN _ _ _ _), fieldX_formatXYN, fieldY_formatXYN, fieldN_formatXYN]

/-- In group E the decoder's second level decides, on bits 7:0. -/
theorem decode_groupE (x : Reg) (nn : Byte) : decode (0xE#4 ++ x ++ nn) = decodeOpE x nn := by
  rw [decode_opE (fieldOP_formatXNN _ _ _), fieldX_formatXNN, fieldNN_formatXNN]

theorem decode_encode (i : Instr) (h : i.wf = true) : decode (encode i) = .ok i := by
  cases i with
  | cls => exact decode_cls
  | ret => exact decode_ret
  | jp nnn => exact decode_jp nnn
  | call nnn => exact decode_call nnn
  | seImm x nn => exact decode_seImm x nn
  | sneImm x nn => exact decode_sneImm x nn
  | seReg x y => exact decode_seReg x y
  | ldImm x nn => exact decode_ldImm x nn
  | addImm x nn => exact decode_addImm x nn
  | ldReg x y | or x y | and x y | xor x y | addReg x y | sub x y | shr x y | subn x y | shl x y =>
    exact decode_group8 x y _
  | sneReg x y => exact decode_sneReg x y
  | ldI nnn => exact decode_ldI nnn
  | jpOfs x nnn =>
    obtain rfl : x = nnn.extractLsb 11 8 := eq_of_beq h
    exact decode_jpOfs nnn
  | rnd x nn => exact decode_rnd x nn
  | drw x y n => exact decode_drw x y n
  | skp x | sknp x => exact decode_groupE x _
  | ldVxDt x | ldDtVx x | ldStVx x | addI x | ldVxK x | ldF x | ldB x | stRegs x | ldRegs x =>
    exact decode_groupF x _

theorem decodeBytes_encodeBytes (i : Instr) (h : i.wf = true) (rest : List Byte) :
    decodeBytes (encodeBytes i ++ rest) = .ok (i, rest) := by
  simp only [encodeBytes, List.cons_append, List.nil_append, decodeBytes, wordOfBytes_bytes, decode_encode i h]

/-- Settles O17: the word is decoded by the lemma of its format, and its two bytes make the word again. -/
theorem decodeOfEncodeIsTheInstruction : Obligations.DecodeOfEncodeIsTheInstruction :=
  fun i h => ⟨decode_encode i h, decodeBytes_encodeBytes i h⟩

/-! ### Encoding a decoded word -/

theorem formatNNN_of_op {w : Word} {op : Nibble} (h : fieldOP w = op) : (op ++ fieldNNN w : Word) = w :=
  h ▸ word_formatNNN w

theorem formatXNN_of_op {w : Word} {op : Nibble} (h : fieldOP w = op) : (op ++ fieldX w ++ fieldNN w : Word) = w :=
  h ▸ word_formatXNN w

theorem formatXYN_of_op {w : Word} {op n : Nibble} (h : fieldOP w = op) (hn : fieldN w = n) :
    (op ++ fieldX w ++ fieldY w ++ n : Word) = w :=
  h ▸ hn ▸ word_formatXYN w

theorem encode_decodeOp0 {w : Word} {i : Instr} (h : decodeOp0 w = .ok i) : i.wf = true ∧ encode i = w := by
  unfold decodeOp0 at h
  split_ifs at h with isCls isRet
  · cases h; exact ⟨rfl, isCls.symm⟩
  · cases h; exact ⟨rfl, isRet.symm⟩

theorem encode_decodeOp8 {x y : Reg} {n : Nibble} {i : Instr} (h : decodeOp8 x y n = .ok i) :
    i.wf = true ∧ encode i = (0x8#4 ++ x ++ y ++ n : Word) := by
  unfold decodeOp8 at h
  split_ifs at h with hn hn hn hn hn hn hn hn hn <;> (cases h; subst hn; exact ⟨rfl, rfl⟩)

theorem encode_decodeOpE {x : Reg} {nn : Byte} {i : Instr} (h : decodeOpE x nn = .ok i) :
    i.wf = true ∧ encode i = (0xE#4 ++ x ++ nn : Word) := by
  unfold decodeOpE at h
  split_ifs at h with hnn hnn <;> (cases h; subst hnn; exact ⟨rfl, rfl⟩)

theorem encode_decodeOpF {x : Reg} {nn : Byte} {i : Instr} (h : decodeOpF x nn = .ok i) :
    i.wf = true ∧ encode i = (0xF#4 ++ x ++ nn : Word) := by
  unfold decodeOpF at h
  split_ifs at h with hnn hnn hnn hnn hnn hnn hnn hnn hnn <;> (cases h; subst hnn; exact ⟨rfl, rfl⟩)

/-- The fields X and NNN of one word agree as BNNN wants them (R71, R117). -/
theorem jpOfsOperandsAgree_fields (w : Word) : jpOfsOperandsAgree (fieldX w) (fieldNNN w) = true := by
  have h := fieldX_formatNNN (fieldOP w) (fieldNNN w)
  rw [word_formatNNN] at h
  exact beq_iff_eq.2 h

theorem fieldOP_cases (w : Word) : fieldOP w = 0x0#4 ∨ fieldOP w = 0x1#4 ∨ fieldOP w = 0x2#4 ∨ fieldOP w = 0x3#4 ∨
    fieldOP w = 0x4#4 ∨ fieldOP w = 0x5#4 ∨ fieldOP w = 0x6#4 ∨ fieldOP w = 0x7#4 ∨ fieldOP w = 0x8#4 ∨
    fieldOP w = 0x9#4 ∨ fieldOP w = 0xA#4 ∨ fieldOP w = 0xB#4 ∨ fieldOP w = 0xC#4 ∨ fieldOP w = 0xD#4 ∨
    fieldOP w = 0xE#4 ∨ fieldOP w = 0xF#4 := by
  generalize fieldOP w = op
  revert op
  decide

theorem encode_decode {w : Word} {i : Instr} (h : decode w = .ok i) : i.wf = true ∧ encode i = w := by
  rcases fieldOP_cases w with op | op | op | op | op | op | op | op | op | op | op | op | op | op | op | op
  · exact encode_decodeOp0 (decode_op0 op ▸ h)
  · cases (decode_op1 op).symm.trans h; exact ⟨rfl, formatNNN_of_op op⟩
  · cases (decode_op2 op).symm.trans h; exact ⟨rfl, formatNNN_of_op op⟩
  · cases (decode_op3 op).symm.trans h; exact ⟨rfl, formatXNN_of_op op⟩
  · cases (decode_op4 op).symm.trans h; exact ⟨rfl, formatXNN_of_op op⟩
  · rw [decode_op5 op] at h
    split_ifs at h with n
    cases h; exact ⟨rfl, formatXYN_of_op op n⟩
  · cases (decode_op6 op).symm.trans h; exact ⟨rfl, formatXNN_of_op op⟩
  · cases (decode_op7 op).symm.trans h; exact ⟨rfl, formatXNN_of_op op⟩
  · obtain ⟨wf, word⟩ := encode_decodeOp8 (decode_op8 op ▸ h)
    exact ⟨wf, word.trans (formatXYN_of_op op rfl)⟩
  · rw [decode_op9 op] at h
    split_ifs at h with n
    cases h; exact ⟨rfl, formatXYN_of_op op n⟩
  · cases (decode_opA op).symm.trans h; exact ⟨rfl, formatNNN_of_op op⟩
  · cases (decode_opB op).symm.trans h; exact ⟨jpOfsOperandsAgree_fields w, formatNNN_of_op op⟩
  · cases (decode_opC op).symm.trans h; exact ⟨rfl, formatXNN_of_op op⟩
  · cases (decode_opD op).symm.trans h; exact ⟨rfl, formatXYN_of_op op rfl⟩
  · obtain ⟨wf, word⟩ := encode_decodeOpE (decode_opE op ▸ h)
    exact ⟨wf, word.trans (formatXNN_of_op op)⟩
  · obtain ⟨wf, word⟩ := encode_decodeOpF (decode_opF op ▸ h)
    exact ⟨wf, word.trans (formatXNN_of_op op)⟩

/-- Settles O18: for each value of OP, the fields read from the word put the word together again. -/
theorem encodeOfDecodeIsTheWord : Obligations.EncodeOfDecodeIsTheWord := fun _ _ h => encode_decode h

/-! ### The rows a word matches -/

/-- The word of every instruction matches the instruction's row. -/
theorem encode_matches_opcodeRow (i : Instr) : encode i &&& (opcodeRow i).2 = (opcodeRow i).1 := by
  cases i with
  | cls => exact Laws.OpcodeRow.cls
  | ret => exact Laws.OpcodeRow.ret
  | jp nnn => exact Laws.OpcodeRow.jp nnn
  | call nnn => exact Laws.OpcodeRow.call nnn
  | seImm x nn => exact Laws.OpcodeRow.seImm x nn
  | sneImm x nn => exact Laws.OpcodeRow.sneImm x nn
  | seReg x y => exact Laws.OpcodeRow.seReg x y
  | ldImm x nn => exact Laws.OpcodeRow.ldImm x nn
  | addImm x nn => exact Laws.OpcodeRow.addImm x nn
  | ldReg x y => exact Laws.OpcodeRow.ldReg x y
  | or x y => exact Laws.OpcodeRow.or x y
  | and x y => exact Laws.OpcodeRow.and x y
  | xor x y => exact Laws.OpcodeRow.xor x y
  | addReg x y => exact Laws.OpcodeRow.addReg x y
  | sub x y => exact Laws.OpcodeRow.sub x y
  | shr x y => exact Laws.OpcodeRow.shr x y
  | subn x y => exact Laws.OpcodeRow.subn x y
  | shl x y => exact Laws.OpcodeRow.shl x y
  | sneReg x y => exact Laws.OpcodeRow.sneReg x y
  | ldI nnn => exact Laws.OpcodeRow.ldI nnn
  | jpOfs x nnn => exact Laws.OpcodeRow.jpOfs x nnn
  | rnd x nn => exact Laws.OpcodeRow.rnd x nn
  | drw x y n => exact Laws.OpcodeRow.drw x y n
  | skp x => exact Laws.OpcodeRow.skp x
  | sknp x => exact Laws.OpcodeRow.sknp x
  | ldVxDt x => exact Laws.OpcodeRow.ldVxDt x
  | ldDtVx x => exact Laws.OpcodeRow.ldDtVx x
  | ldStVx x => exact Laws.OpcodeRow.ldStVx x
  | addI x => exact Laws.OpcodeRow.addI x
  | ldVxK x => exact Laws.OpcodeRow.ldVxK x
  | ldF x => exact Laws.OpcodeRow.ldF x
  | ldB x => exact Laws.OpcodeRow.ldB x
  | stRegs x => exact Laws.OpcodeRow.stRegs x
  | ldRegs x => exact Laws.OpcodeRow.ldRegs x

section
variable {w mask : Word} (m : Word)

/-- Where the mask keeps all of a field, the field of the word is the field of the match. -/
theorem fieldOP_of_mask (h : w &&& mask = m) (keeps : fieldOP mask = 0xF#4) : fieldOP w = fieldOP m := by
  have kept : fieldOP w &&& fieldOP mask = fieldOP m := by rw [← h]; exact BitVec.extractLsb_and.symm
  rw [← kept, keeps]
  exact BitVec.and_allOnes.symm

theorem fieldN_of_mask (h : w &&& mask = m) (keeps : fieldN mask = 0xF#4) : fieldN w = fieldN m := by
  have kept : fieldN w &&& fieldN mask = fieldN m := by rw [← h]; exact BitVec.extractLsb_and.symm
  rw [← kept, keeps]
  exact BitVec.and_allOnes.symm

theorem fieldNN_of_mask (h : w &&& mask = m) (keeps : fieldNN mask = 0xFF#8) : fieldNN w = fieldNN m := by
  have kept : fieldNN w &&& fieldNN mask = fieldNN m := by rw [← h]; exact BitVec.extractLsb_and.symm
  rw [← kept, keeps]
  exact BitVec.and_allOnes.symm

/-- The mask of a row with operands below OP alone. -/
theorem op_of_mask {op : Nibble} (h : w &&& 0xF000#16 = m) (hop : fieldOP m = op) : fieldOP w = op :=
  (fieldOP_of_mask m h (by decide)).trans hop

/-- The mask of a row with the operands X and Y alone. -/
theorem op_n_of_mask {op n : Nibble} (h : w &&& 0xF00F#16 = m) (hop : fieldOP m = op) (hn : fieldN m = n) :
    fieldOP w = op ∧ fieldN w = n :=
  ⟨(fieldOP_of_mask m h (by decide)).trans hop, (fieldN_of_mask m h (by decide)).trans hn⟩

/-- The mask of a row with the operand X alone. -/
theorem op_nn_of_mask {op : Nibble} {nn : Byte} (h : w &&& 0xF0FF#16 = m) (hop : fieldOP m = op)
    (hnn : fieldNN m = nn) : fieldOP w = op ∧ fieldNN w = nn :=
  ⟨(fieldOP_of_mask m h (by decide)).trans hop, (fieldNN_of_mask m h (by decide)).trans hnn⟩

/-- The mask of a fixed word keeps all its bits. -/
theorem eq_of_mask_FFFF (h : w &&& 0xFFFF#16 = m) : w = m := by
  have all : w &&& 0xFFFF#16 = w := BitVec.and_allOnes
  rw [← h, all]

/-- A word that matches a row of group 8 decodes as the row's last digit says. -/
theorem decode_of_mask_group8 (h : w &&& 0xF00F#16 = m) (hop : fieldOP m = 0x8#4) :
    decode w = decodeOp8 (fieldX w) (fieldY w) (fieldN m) := by
  obtain ⟨op, n⟩ := op_n_of_mask m h hop rfl
  rw [decode_op8 op, n]

/-- A word that matches a row of group F decodes as the row's last two digits say. -/
theorem decode_of_mask_groupF (h : w &&& 0xF0FF#16 = m) (hop : fieldOP m = 0xF#4) :
    decode w = decodeOpF (fieldX w) (fieldNN m) := by
  obtain ⟨op, nn⟩ := op_nn_of_mask m h hop rfl
  rw [decode_opF op, nn]

theorem decode_of_mask_groupE (h : w &&& 0xF0FF#16 = m) (hop : fieldOP m = 0xE#4) :
    decode w = decodeOpE (fieldX w) (fieldNN m) := by
  obtain ⟨op, nn⟩ := op_nn_of_mask m h hop rfl
  rw [decode_opE op, nn]

end

/-- A word that matches a row decodes to an instruction of the row, with the word's own fields for operands. -/
theorem decode_of_match {w : Word} (i : Instr) (h : w &&& (opcodeRow i).2 = (opcodeRow i).1) :
    ∃ k, decode w = .ok k ∧ opcodeRow k = opcodeRow i := by
  cases i with
  | cls => exact ⟨.cls, eq_of_mask_FFFF 0x00E0#16 h ▸ decode_cls, rfl⟩
  | ret => exact ⟨.ret, eq_of_mask_FFFF 0x00EE#16 h ▸ decode_ret, rfl⟩
  | jp => exact ⟨_, decode_op1 (op_of_mask 0x1000#16 h (by decide)), rfl⟩
  | call => exact ⟨_, decode_op2 (op_of_mask 0x2000#16 h (by decide)), rfl⟩
  | seImm => exact ⟨_, decode_op3 (op_of_mask 0x3000#16 h (by decide)), rfl⟩
  | sneImm => exact ⟨_, decode_op4 (op_of_mask 0x4000#16 h (by decide)), rfl⟩
  | seReg =>
    obtain ⟨op, n⟩ := op_n_of_mask (op := 0x5#4) (n := 0x0#4) 0x5000#16 h (by decide) (by decide)
    exact ⟨_, (decode_op5 op).trans (if_pos n), rfl⟩
  | ldImm => exact ⟨_, decode_op6 (op_of_mask 0x6000#16 h (by decide)), rfl⟩
  | addImm => exact ⟨_, decode_op7 (op_of_mask 0x7000#16 h (by decide)), rfl⟩
  | ldReg => exact ⟨.ldReg _ _, decode_of_mask_group8 0x8000#16 h (by decide), rfl⟩
  | or => exact ⟨.or _ _, decode_of_mask_group8 0x8001#16 h (by decide), rfl⟩
  | and => exact ⟨.and _ _, decode_of_mask_group8 0x8002#16 h (by decide), rfl⟩
  | xor => exact ⟨.xor _ _, decode_of_mask_group8 0x8003#16 h (by decide), rfl⟩
  | addReg => exact ⟨.addReg _ _, decode_of_mask_group8 0x8004#16 h (by decide), rfl⟩
  | sub => exact ⟨.sub _ _, decode_of_mask_group8 0x8005#16 h (by decide), rfl⟩
  | shr => exact ⟨.shr _ _, decode_of_mask_group8 0x8006#16 h (by decide), rfl⟩
  | subn => exact ⟨.subn _ _, decode_of_mask_group8 0x8007#16 h (by decide), rfl⟩
  | shl => exact ⟨.shl _ _, decode_of_mask_group8 0x800E#16 h (by decide), rfl⟩
  | sneReg =>
    obtain ⟨op, n⟩ := op_n_of_mask (op := 0x9#4) (n := 0x0#4) 0x9000#16 h (by decide) (by decide)
    exact ⟨_, (decode_op9 op).trans (if_pos n), rfl⟩
  | ldI => exact ⟨_, decode_opA (op_of_mask 0xA000#16 h (by decide)), rfl⟩
  | jpOfs => exact ⟨_, decode_opB (op_of_mask 0xB000#16 h (by decide)), rfl⟩
  | rnd => exact ⟨_, decode_opC (op_of_mask 0xC000#16 h (by decide)), rfl⟩
  | drw => exact ⟨_, decode_opD (op_of_mask 0xD000#16 h (by decide)), rfl⟩
  | skp => exact ⟨.skp _, decode_of_mask_groupE 0xE09E#16 h (by decide), rfl⟩
  | sknp => exact ⟨.sknp _, decode_of_mask_groupE 0xE0A1#16 h (by decide), rfl⟩
  | ldVxDt => exact ⟨.ldVxDt _, decode_of_mask_groupF 0xF007#16 h (by decide), rfl⟩
  | ldDtVx => exact ⟨.ldDtVx _, decode_of_mask_groupF 0xF015#16 h (by decide), rfl⟩
  | ldStVx => exact ⟨.ldStVx _, decode_of_mask_groupF 0xF018#16 h (by decide), rfl⟩
  | addI => exact ⟨.addI _, decode_of_mask_groupF 0xF01E#16 h (by decide), rfl⟩
  | ldVxK => exact ⟨.ldVxK _, decode_of_mask_groupF 0xF00A#16 h (by decide), rfl⟩
  | ldF => exact ⟨.ldF _, decode_of_mask_groupF 0xF029#16 h (by decide), rfl⟩
  | ldB => exact ⟨.ldB _, decode_of_mask_groupF 0xF033#16 h (by decide), rfl⟩
  | stRegs => exact ⟨.stRegs _, decode_of_mask_groupF 0xF055#16 h (by decide), rfl⟩
  | ldRegs => exact ⟨.ldRegs _, decode_of_mask_groupF 0xF065#16 h (by decide), rfl⟩

/-- Settles O19: a matching word decodes to the row by its fields; a word that decodes to the row is an encoding, and every
encoding matches its row. -/
theorem decodeSelectsTheMatchingRow : Obligations.DecodeSelectsTheMatchingRow := by
  refine fun w i => ⟨decode_of_match i, ?_⟩
  rintro ⟨k, decoded, row⟩
  obtain ⟨-, rfl⟩ := encode_decode decoded
  rw [← row]
  exact encode_matches_opcodeRow k

/-! ### The words that match no row (R76) -/

/-- The six classes of R76, on the fields of the word. -/
def InClass (w : Word) : Unmatched → Prop
  | .op0 => fieldOP w = 0x0#4 ∧ w ≠ 0x00E0#16 ∧ w ≠ 0x00EE#16
  | .op5 => fieldOP w = 0x5#4 ∧ fieldN w ≠ 0x0#4
  | .op8 => fieldOP w = 0x8#4 ∧ fieldN w ∈ [0x8#4, 0x9#4, 0xA#4, 0xB#4, 0xC#4, 0xD#4, 0xF#4]
  | .op9 => fieldOP w = 0x9#4 ∧ fieldN w ≠ 0x0#4
  | .opE => fieldOP w = 0xE#4 ∧ fieldNN w ∉ [0x9E#8, 0xA1#8]
  | .opF => fieldOP w = 0xF#4 ∧
      fieldNN w ∉ [0x07#8, 0x0A#8, 0x15#8, 0x18#8, 0x1E#8, 0x29#8, 0x33#8, 0x55#8, 0x65#8]

theorem decodeOp0_error (w : Word) (why : Unmatched) :
    decodeOp0 w = .error why ↔ why = .op0 ∧ w ≠ 0x00E0#16 ∧ w ≠ 0x00EE#16 := by
  unfold decodeOp0
  split_ifs <;> simp [*, @eq_comm _ why]

theorem decodeOp8_error (x y : Reg) (n : Nibble) (why : Unmatched) : decodeOp8 x y n = .error why ↔
    why = .op8 ∧ n ∈ [0x8#4, 0x9#4, 0xA#4, 0xB#4, 0xC#4, 0xD#4, 0xF#4] := by
  have digits : ∀ n : Nibble, n ∈ [0x8#4, 0x9#4, 0xA#4, 0xB#4, 0xC#4, 0xD#4, 0xF#4] ↔
      n ∉ [0x0#4, 0x1#4, 0x2#4, 0x3#4, 0x4#4, 0x5#4, 0x6#4, 0x7#4, 0xE#4] := by decide
  rw [digits]
  unfold decodeOp8
  split_ifs <;> simp [*, @eq_comm _ why]

theorem decodeOpE_error (x : Reg) (nn : Byte) (why : Unmatched) :
    decodeOpE x nn = .error why ↔ why = .opE ∧ nn ∉ [0x9E#8, 0xA1#8] := by
  unfold decodeOpE
  split_ifs <;> simp [*, @eq_comm _ why]

theorem decodeOpF_error (x : Reg) (nn : Byte) (why : Unmatched) : decodeOpF x nn = .error why ↔
    why = .opF ∧ nn ∉ [0x07#8, 0x0A#8, 0x15#8, 0x18#8, 0x1E#8, 0x29#8, 0x33#8, 0x55#8, 0x65#8] := by
  unfold decodeOpF
  split_ifs <;> simp [*, @eq_comm _ why]

theorem ite_ok_eq_error (p : Prop) [Decidable p] (i : Instr) (e why : Unmatched) :
    (if p then .ok i else .error e : Except Unmatched Instr) = .error why ↔ why = e ∧ ¬ p := by
  split_ifs with h <;> simp [h, @eq_comm _ why]

/-- A word is rejected by the name of the class it is in. -/
theorem decode_error (w : Word) (why : Unmatched) : decode w = .error why ↔ InClass w why := by
  rcases fieldOP_cases w with op | op | op | op | op | op | op | op | op | op | op | op | op | op | op | op
  · rw [decode_op0 op, decodeOp0_error]
    cases why <;> simp [InClass, op]
  · cases why <;> simp [InClass, op, decode_op1 op]
  · cases why <;> simp [InClass, op, decode_op2 op]
  · cases why <;> simp [InClass, op, decode_op3 op]
  · cases why <;> simp [InClass, op, decode_op4 op]
  · rw [decode_op5 op, ite_ok_eq_error]
    cases why <;> simp [InClass, op]
  · cases why <;> simp [InClass, op, decode_op6 op]
  · cases why <;> simp [InClass, op, decode_op7 op]
  · rw [decode_op8 op, decodeOp8_error]
    cases why <;> simp [InClass, op]
  · rw [decode_op9 op, ite_ok_eq_error]
    cases why <;> simp [InClass, op]
  · cases why <;> simp [InClass, op, decode_opA op]
  · cases why <;> simp [InClass, op, decode_opB op]
  · cases why <;> simp [InClass, op, decode_opC op]
  · cases why <;> simp [InClass, op, decode_opD op]
  · rw [decode_opE op, decodeOpE_error]
    cases why <;> simp [InClass, op]
  · rw [decode_opF op, decodeOpF_error]
    cases why <;> simp [InClass, op]

/-! ### The fields as numbers (R71) -/

theorem fieldOP_toNat (w : Word) : (fieldOP w).toNat = w.toNat / 4096 := by
  have h := w.isLt
  simp [fieldOP, BitVec.extractLsb_toNat, Nat.shiftRight_eq_div_pow]
  omega

theorem fieldN_toNat (w : Word) : (fieldN w).toNat = w.toNat % 16 := by
  simp [fieldN, BitVec.extractLsb_toNat]

theorem fieldNN_toNat (w : Word) : (fieldNN w).toNat = w.toNat % 256 := by
  simp [fieldNN, BitVec.extractLsb_toNat]

/-- Settles O20: each class on the fields is the same class on the word's number. -/
theorem unmatchedWordsAreTheSixClasses : Obligations.UnmatchedWordsAreTheSixClasses := by
  intro w
  simp only [decode_error, InClass, ← BitVec.toNat_inj, List.mem_cons, List.not_mem_nil, or_false, not_or, ne_eq,
    fieldOP_toNat, fieldN_toNat, fieldNN_toNat, BitVec.toNat_ofNat, Nat.reducePow, Nat.reduceMod, and_self]

/-- Settles O21: each word decodes by computation. -/
theorem sampleWordsDecodeAsTheMapSays : Obligations.SampleWordsDecodeAsTheMapSays := by
  unfold Obligations.SampleWordsDecodeAsTheMapSays
  decide

end Sys2Proof.Machine
end

