-- ==== Sys2Proof/Proofs/FrameRules.lean ====
section
/-! How a frame is narrowed and widened, and the frame of every update that the earlier files leave without one: the latch, a
list of stores, a list of loads, a draw, the flag that is raised only, the count of draws, the end of a cycle. -/

namespace Sys2Proof.Safety

open Sys2Proof.Machine

theorem Part.same_refl (p : Part) (s : State) : p.same s s := by
  cases p with
  | pc | index | delay | sound | fault | params => exact Eq.refl _
  | memory | display | keys => exact fun _ => rfl
  | stack => exact ⟨rfl, fun _ => rfl⟩
  | random => exact ⟨rfl, rfl⟩

section
variable {ps qs : List Part} {rs rs' : List Reg} {s t : State}

/-- A frame may name fewer pieces and registers where those it no longer names are found unchanged. -/
theorem Frame.narrow (h : Frame ps rs s t) (parts : ∀ p ∈ ps, p ∉ qs → p.same s t)
    (regs : ∀ r ∈ rs, r ∉ rs' → t.V r = s.V r) : Frame qs rs' s t := by
  obtain ⟨hpart, hreg⟩ := h
  refine ⟨fun p hp => ?_, fun r hr => ?_⟩
  · by_cases named : p ∈ ps
    · exact parts p named hp
    · exact hpart p named
  · by_cases named : r ∈ rs
    · exact regs r named hr
    · exact hreg r named

theorem Frame.mono (h : Frame ps rs s t) (parts : ps ⊆ qs) (regs : rs ⊆ rs') : Frame qs rs' s t :=
  h.narrow (fun _ hp hq => absurd (parts hp) hq) fun _ hr hr' => absurd (regs hr) hr'

theorem Frame.same {p : Part} (h : Frame ps rs s t) (hp : p ∉ ps) : p.same s t := h.1 p hp

end

end Sys2Proof.Safety

namespace Sys2Proof.Machine

open Sys2Proof.Safety

theorem State.withFault_frame (s : State) (e : ErrorKind) : Frame [.fault] [] s (s.withFault e) := by
  refine ⟨fun p hp => ?_, fun r _ => s.withFault_V e r⟩
  cases p with
  | fault => exact absurd (List.mem_singleton_self _) hp
  | stack | random => exact ⟨rfl, by simp⟩
  | memory | display | pc | index | delay | sound | keys | params => simp [Part.same]

/-- A next state that differs at most in memory is framed by memory. -/
theorem frame_of_onlyMem {s t : State} (h : OnlyMem s t) : Frame [.memory] [] s t := by
  obtain ⟨m, rfl⟩ := h
  refine ⟨fun p hp => ?_, fun r _ => rfl⟩
  cases p with
  | memory => exact absurd (List.mem_singleton_self _) hp
  | stack => exact ⟨rfl, fun _ => rfl⟩
  | random => exact ⟨rfl, rfl⟩
  | display | keys => exact fun _ => rfl
  | pc | index | delay | sound | fault | params => exact Eq.refl _

/-- A next state that differs at most in the V registers has every piece as it was. -/
theorem same_of_onlyV {s t : State} (h : OnlyV s t) (p : Part) : p.same s t := by
  obtain ⟨v, rfl⟩ := h
  cases p with
  | stack => exact ⟨rfl, fun _ => rfl⟩
  | random => exact ⟨rfl, rfl⟩
  | memory | display | keys => exact fun _ => rfl
  | pc | index | delay | sound | fault | params => exact Eq.refl _

/-- A draw is framed by the display and VF. -/
theorem frame_of_onlyDrawn {s t : State} (h : OnlyDrawn s t) : Frame [.display] [VF] s t := by
  obtain ⟨⟨d, v, rfl⟩, regs, -⟩ := h
  refine ⟨fun p hp => ?_, fun r hr => regs r (List.ne_of_not_mem_cons hr)⟩
  cases p with
  | display => exact absurd (List.mem_singleton_self _) hp
  | stack => exact ⟨rfl, fun _ => rfl⟩
  | random => exact ⟨rfl, rfl⟩
  | memory | keys => exact fun _ => rfl
  | pc | index | delay | sound | fault | params => exact Eq.refl _

/-- A flag that is raised only is, raised or not, at most a write of VF. -/
theorem State.raiseVFIf_frame (s : State) (c : Bool) : Frame [] [VF] s (s.raiseVFIf c) := by
  cases c with
  | true => exact s.setVF_frame 1#8
  | false => exact ⟨fun p _ => p.same_refl s, fun _ _ => rfl⟩

theorem State.countDraw_frame (s : State) : Frame [.random] [] s s.countDraw := by
  refine ⟨fun p hp => ?_, fun r _ => s.countDraw_V r⟩
  cases p with
  | random => exact absurd (List.mem_singleton_self _) hp
  | stack => exact ⟨rfl, by simp⟩
  | memory | display | pc | index | delay | sound | keys | fault | params => simp [Part.same]

theorem State.dropRnd_frame (s : State) : Frame [.random] [] s s.dropRnd := by
  refine ⟨fun p hp => ?_, fun r _ => s.dropRnd_V r⟩
  cases p with
  | random => exact absurd (List.mem_singleton_self _) hp
  | stack => exact ⟨rfl, by simp⟩
  | memory | display | pc | index | delay | sound | keys | fault | params => simp [Part.same]

theorem State.setKeys_frame (s : State) (ks : Vector Bool 16) : Frame [.keys] [] s (s.setKeys ks) := by
  refine ⟨fun p hp => ?_, fun r _ => s.setKeys_V ks r⟩
  cases p with
  | keys => exact absurd (List.mem_singleton_self _) hp
  | stack | random => exact ⟨rfl, by simp⟩
  | memory | display | pc | index | delay | sound | fault | params => simp [Part.same]

theorem timerDecay_frame (s : State) : Frame [.delay] [] s (timerDecay s) := by
  unfold timerDecay
  split
  · exact s.setDt_frame _
  · exact ⟨fun p _ => p.same_refl s, fun _ _ => rfl⟩

/-- The end of a cycle moves the delay timer and spends the supplied random byte (spec/40_cycle.md R96; log 5). -/
theorem endCycle_frame (s : State) : Frame [.delay, .random] [] s (endCycle s) :=
  (timerDecay_frame s).trans (State.dropRnd_frame _)

/-- Stack, SP and PC are the only pieces a CALL or a RET writes. -/
theorem State.stackAndPc_frame (s : State) (stack : Vector Word 16) (sp : Fin 17) (pc : Word) :
    Frame [.pc, .stack] [] s { s with stack := stack, sp := sp, pc := pc } := by
  refine ⟨fun p hp => ?_, fun r _ => rfl⟩
  cases p with
  | pc | stack => simp at hp
  | random => exact ⟨rfl, rfl⟩
  | memory | display | keys => exact fun _ => rfl
  | index | delay | sound | fault | params => exact Eq.refl _

end Sys2Proof.Machine
end

