-- ==== Sys2Proof/Proofs/StackInstructions.lean ====
section
/-! CALL and RET (spec/41_control_flow.md R110, R112): the state each answers, or the error it raises, and the round trip of the
two; then the three statements. -/

namespace Sys2Proof.Machine

open Sys2Proof.Safety

theorem State.sp_zero_or_succ (s : State) : s.sp.val = 0 ∨ ∃ k : Fin 16, s.sp.val = k.val + 1 := by
  have limit := s.sp.isLt
  rcases Nat.eq_zero_or_pos s.sp.val with empty | above
  · exact .inl empty
  · exact .inr ⟨⟨s.sp.val - 1, by omega⟩, (Nat.sub_add_cancel above).symm⟩

theorem State.sp_full_or_below (s : State) : s.sp.val = 16 ∨ ∃ k : Fin 16, s.sp.val = k.val := by
  rcases Nat.eq_or_lt_of_le (Nat.le_of_lt_succ s.sp.isLt) with full | below
  · exact .inl full
  · exact .inr ⟨⟨s.sp.val, below⟩, rfl⟩

/-- The state a CALL answers where the stack holds `k` addresses, `k` below 16. -/
def State.afterCall (s : State) (k : Fin 16) (nnn : Addr12) : State :=
  { s with stack := s.stack.set k.val s.pc k.isLt, sp := k.succ, pc := immAddr nnn }

/-- The state a RET answers where the stack holds `k + 1` addresses. -/
def State.afterRet (s : State) (k : Fin 16) : State := { s with sp := k.castSucc, pc := s.stackAt k }

section
variable {s : State} {k : Fin 16}

theorem execRet_pops (h : s.sp.val = k.val + 1) : execRet s = .next (s.afterRet k) := by
  rcases s.popPc_cases with ⟨_, j, hj, popped⟩ | ⟨empty, -⟩
  · obtain rfl : j = k := Fin.ext (by omega)
    have sp : (⟨s.sp.val - 1, by omega⟩ : Fin 17) = j.castSucc := Fin.ext hj.symm
    rw [execRet, popped, sp]
    rfl
  · omega

theorem execRet_underflows (h : s.sp.val = 0) : execRet s = .next (s.withFault .stackUnderflowError) := by
  rcases s.popPc_cases with ⟨above, -⟩ | ⟨-, raised⟩
  · omega
  · rw [execRet, raised]
    rfl

theorem execCall_pushes (nnn : Addr12) (h : s.sp.val = k.val) : execCall nnn s = .next (s.afterCall k nnn) := by
  obtain ⟨j, hj⟩ := k
  subst h
  rcases s.push_cases s.pc with ⟨_, pushed⟩ | ⟨full, -⟩
  · rw [execCall, pushed]
    rfl
  · omega

theorem execCall_overflows (nnn : Addr12) (h : s.sp.val = 16) :
    execCall nnn s = .next (s.withFault .stackOverflowError) := by
  rcases s.push_cases s.pc with ⟨below, -⟩ | ⟨-, raised⟩
  · omega
  · rw [execCall, raised]
    rfl

end

theorem State.afterCall_stackAt_same (s : State) (k : Fin 16) (nnn : Addr12) : (s.afterCall k nnn).stackAt k = s.pc := by
  simp [State.afterCall, State.stackAt]

theorem State.afterCall_stackAt_ne (s : State) (k n : Fin 16) (nnn : Addr12) (h : n ≠ k) :
    (s.afterCall k nnn).stackAt n = s.stackAt n := by
  have hne : k.val ≠ n.val := fun e => h (Fin.ext e.symm)
  simp [State.afterCall, State.stackAt, Vector.getElem_set_ne, hne]

theorem State.afterCall_frame (s : State) (k : Fin 16) (nnn : Addr12) : Frame [.pc, .stack] [] s (s.afterCall k nnn) :=
  s.stackAndPc_frame _ _ _

theorem State.afterRet_frame (s : State) (k : Fin 16) : Frame [.pc, .stack] [] s (s.afterRet k) :=
  s.stackAndPc_frame s.stack _ _

/-- A CALL and then a RET leave PC as it was, and of all pieces the stack alone may differ. -/
theorem State.afterCall_afterRet_frame (s : State) (k : Fin 16) (nnn : Addr12) :
    Frame [.stack] [] s ((s.afterCall k nnn).afterRet k) := by
  refine ((s.afterCall_frame k nnn).trans (State.afterRet_frame _ k)).narrow (fun p named other => ?_) (by simp)
  cases p with
  | pc => exact s.afterCall_stackAt_same k nnn
  | stack => exact absurd (List.mem_singleton_self _) other
  | memory | display | index | delay | sound | keys | fault | params | random => simp at named

/-! ### The statements -/

/-- Settles O25: RET answers the popped state above SP = 0 and raises at 0. -/
theorem retPopsTheReturnAddress : Obligations.RetPopsTheReturnAddress :=
  ⟨decode_ret, fun s => ⟨fun k h => ⟨s.afterRet k, execRet_pops h, rfl, rfl, fun _ => rfl, s.afterRet_frame k⟩,
    execRet_underflows⟩⟩

/-- Settles O27: CALL answers the pushed state below SP = 16 and raises at 16. -/
theorem callPushesAndJumps : Obligations.CallPushesAndJumps :=
  fun nnn s => ⟨decode_call nnn,
    fun k h => ⟨s.afterCall k nnn, execCall_pushes nnn h, rfl, s.afterCall_stackAt_same k nnn,
      fun n hn => s.afterCall_stackAt_ne k n nnn hn, immAddr_toNat nnn, s.afterCall_frame k nnn⟩,
    execCall_overflows nnn⟩

/-- Settles O28: the entry that the RET reads is the one the CALL wrote. -/
theorem callThenRetComesBack : Obligations.CallThenRetComesBack := by
  intro nnn s h
  let k : Fin 16 := ⟨s.sp.val, h⟩
  exact ⟨s.afterCall k nnn, (s.afterCall k nnn).afterRet k, execCall_pushes nnn rfl, execRet_pops rfl,
    s.afterCall_stackAt_same k nnn, rfl, fun n hn => s.afterCall_stackAt_ne k n nnn fun e => hn (congrArg Fin.val e),
    s.afterCall_afterRet_frame k nnn⟩

end Sys2Proof.Machine
end

