-- ==== Sys2Proof/Proofs/FlagInstructions.lean ====
section
/-! The instructions with a flag or a sum that meets I or PC (spec/42_alu.md R137 to R141, spec/43_index_memory.md R151,
spec/41_control_flow.md R117): the numbers of the differences, shifts, sums and flags, and where VF is among the operands; then
the seven statements. -/

namespace Sys2Proof.Machine

open Sys2Proof.Safety

/-! ### Numbers -/

theorem byte_sub_toNat (a b : Byte) : (a - b).toNat = (a.toNat + 256 - b.toNat) % 256 := by
  have hb := b.isLt
  rw [BitVec.toNat_sub]
  omega

theorem wide_toNat (b : Byte) : (wide b).toNat = b.toNat :=
  BitVec.toNat_setWidth_of_le (by decide)

theorem greaterFlag_toNat (a b : Byte) : (greaterFlag a b).toNat = if a.toNat > b.toNat then 1 else 0 :=
  flagOf_decide_toNat _

theorem flagOf_getLsbD_toNat (b : Byte) (k : Nat) : (flagOf (b.getLsbD k)).toNat = b.toNat / 2 ^ k % 2 := by
  have bit : b.getLsbD k = decide (b.toNat / 2 ^ k % 2 = 1) := Nat.testBit_eq_decide_div_mod_eq
  rw [bit, flagOf_decide_toNat]
  split
  · next one => exact one.symm
  · omega

/-- The bit shifted out to the right, under COMPAT = 0 (spec/42_alu.md R138). -/
theorem shiftRightFlag_toNat (compat : Bool) (b : Byte) :
    (shiftRightFlag compat b).toNat = if compat then 0 else b.toNat % 2 := by
  cases compat with
  | true => rfl
  | false => exact (flagOf_getLsbD_toNat b 0).trans (by simp)

/-- The bit shifted out to the left, under COMPAT = 0 (R140). -/
theorem shiftLeftFlag_toNat (compat : Bool) (b : Byte) :
    (shiftLeftFlag compat b).toNat = if compat then 0 else b.toNat / 128 := by
  have hb := b.isLt
  cases compat with
  | true => rfl
  | false => exact (flagOf_getLsbD_toNat b 7).trans (Nat.mod_eq_of_lt (by omega))

/-! ### A subtraction after the flag is written (R137, R139) -/

theorem State.subtractInto_frame (s : State) (x a b : Reg) : Frame [] [x] s (s.subtractInto x a b) := s.setV_frame x _

theorem flagThenSubtract_frame (s : State) (f : Byte) (x a b : Reg) :
    Frame [] [x, VF] s ((s.setVF f).subtractInto x a b) :=
  ((s.setVF_frame f).trans (State.subtractInto_frame _ x a b)).mono (by simp) (by simp)

theorem flagThenSubtract_toNat (s : State) (f : Byte) (x a b : Reg) : (((s.setVF f).subtractInto x a b).V x).toNat =
    (((s.setVF f).V a).toNat + 256 - ((s.setVF f).V b).toNat) % 256 := by
  rw [State.subtractInto, State.V_setV_same, byte_sub_toNat]

theorem flagThenSubtract_VF (s : State) (f : Byte) {x : Reg} (a b : Reg) (h : x ≠ VF) :
    ((s.setVF f).subtractInto x a b).V VF = f := by
  rw [State.subtractInto, State.V_setV_ne _ x VF _ (Ne.symm h), State.V_setVF_same]

/-! ### A shifted copy and then a flag (R138, R140) -/

theorem copyShiftFlag_frame (s : State) (x : Reg) (copy shifted f : Byte) :
    Frame [] [x, VF] s (((s.setV x copy).setV x shifted).setVF f) :=
  (((s.setV_frame x copy).trans (State.setV_frame _ x shifted)).trans (State.setVF_frame _ f)).mono (by simp) (by simp)

theorem V_copyShiftFlag (s : State) (x : Reg) (copy shifted f : Byte) (h : x ≠ VF) :
    (((s.setV x copy).setV x shifted).setVF f).V x = shifted := by
  rw [State.V_setVF_ne _ x _ h, State.V_setV_same]

/-! ### The statements -/

/-- Settles O37: the difference is of the registers after VF took the flag, so VF reads as the flag wherever it is an
operand. -/
theorem subWritesTheFlagFirst : Obligations.SubWritesTheFlagFirst := by
  intro x y s
  refine ⟨decode_group8 x y 0x5#4, _, _, rfl, rfl, ?neither, ?onlyX, ?onlyY, ?both, flagThenSubtract_frame s _ x x y⟩
  case neither =>
    intro hx hy
    rw [flagThenSubtract_toNat, flagThenSubtract_VF _ _ _ _ hx, State.V_setVF_ne _ x _ hx, State.V_setVF_ne _ y _ hy,
      greaterFlag_toNat]
    exact ⟨rfl, rfl⟩
  case onlyX =>
    rintro rfl hy
    rw [flagThenSubtract_toNat, State.V_setVF_same, State.V_setVF_ne _ y _ hy, greaterFlag_toNat]
  case onlyY =>
    rintro hx rfl
    rw [flagThenSubtract_toNat, flagThenSubtract_VF _ _ _ _ hx, State.V_setVF_ne _ x _ hx, State.V_setVF_same,
      greaterFlag_toNat]
    exact ⟨rfl, rfl⟩
  case both =>
    rintro rfl rfl
    rw [State.subtractInto, State.V_setV_same, BitVec.sub_self]
    rfl

/-- Settles O38: as SUB, with the operands exchanged. -/
theorem subnWritesTheFlagFirst : Obligations.SubnWritesTheFlagFirst := by
  intro x y s
  refine ⟨decode_group8 x y 0x7#4, _, _, rfl, rfl, ?neither, ?onlyX, ?onlyY, ?both, flagThenSubtract_frame s _ x y x⟩
  case neither =>
    intro hx hy
    rw [flagThenSubtract_toNat, flagThenSubtract_VF _ _ _ _ hx, State.V_setVF_ne _ x _ hx, State.V_setVF_ne _ y _ hy,
      greaterFlag_toNat]
    exact ⟨rfl, rfl⟩
  case onlyX =>
    rintro rfl hy
    rw [flagThenSubtract_toNat, State.V_setVF_same, State.V_setVF_ne _ y _ hy, greaterFlag_toNat]
  case onlyY =>
    rintro hx rfl
    rw [flagThenSubtract_toNat, flagThenSubtract_VF _ _ _ _ hx, State.V_setVF_ne _ x _ hx, State.V_setVF_same,
      greaterFlag_toNat]
    exact ⟨rfl, rfl⟩
  case both =>
    rintro rfl rfl
    rw [State.subtractInto, State.V_setV_same, BitVec.sub_self]
    rfl

/-- Settles O39: the flag is written last, and the shifted copy is half of V[Y]. -/
theorem shrShiftsTheSourceRight : Obligations.ShrShiftsTheSourceRight := by
  intro x y s
  refine ⟨decode_group8 x y 0x6#4, _, rfl, fun hx => ?half, ?flag, copyShiftFlag_frame s x _ _ _⟩
  case half => rw [V_copyShiftFlag _ _ _ _ _ hx, BitVec.toNat_ushiftRight, Nat.shiftRight_eq_div_pow, Nat.pow_one]
  case flag => rw [State.V_setVF_same, shiftRightFlag_toNat]

/-- Settles O40: the flag is written last, and the shifted copy is twice V[Y] modulo 256. -/
theorem shlShiftsTheSourceLeft : Obligations.ShlShiftsTheSourceLeft := by
  intro x y s
  refine ⟨decode_group8 x y 0xE#4, _, rfl, fun hx => ?twice, ?flag, copyShiftFlag_frame s x _ _ _⟩
  case twice => rw [V_copyShiftFlag _ _ _ _ _ hx, BitVec.toNat_shiftLeft, Nat.shiftLeft_eq, Nat.pow_one]
  case flag => rw [State.V_setVF_same, shiftLeftFlag_toNat]

/-- The sum of the random byte and the immediate (R141). -/
theorem rndByte_add_toNat (s : State) (nn : Byte) : (s.rndByte + nn).toNat = (s.rndInput.val + nn.toNat) % 256 := by
  have hr := s.rndInput.isLt
  rw [BitVec.toNat_add, State.rndByte, BitVec.toNat_ofNat]
  omega

theorem rndInput_of_supplied {s : State} {q : Fin 255} (h : s.rnd = some q) : s.rndInput = q := by
  simp [State.rndInput, h]

/-- Settles O41: the byte added is the cycle's random input, which is the supplied one where there is one. -/
theorem rndAddsTheImmediateToTheRandomByte : Obligations.RndAddsTheImmediateToTheRandomByte := by
  intro x nn s
  refine ⟨decode_rnd x nn, _, s.rndInput.val, rfl, Nat.le_of_lt_succ s.rndInput.isLt,
    fun q h => congrArg Fin.val (rndInput_of_supplied h), ?sum, (s.setV_frame x _).trans (State.countDraw_frame _)⟩
  case sum => rw [State.countDraw_V, State.V_setV_same, rndByte_add_toNat]

/-- Settles O43: VF is raised where the sum, as I then holds it, is above the threshold. -/
theorem addISetsTheFlagAboveTheThreshold : Obligations.AddISetsTheFlagAboveTheThreshold := by
  intro x s
  refine ⟨decode_groupF x 0x1E#8, _, rfl, ?sum, ?flag, (s.setI_frame _).trans (State.raiseVFIf_frame _ _)⟩
  case sum => rw [State.raiseVFIf_i, State.setI_i, BitVec.toNat_add, wide_toNat]
  case flag => simp [State.V_raiseVFIf, addIThreshold]

theorem execJpOfs_compat (x : Reg) (nnn : Addr12) {s : State} (h : s.params.compat = true) :
    execJpOfs x nnn s = .next (s.setI (s.i + immAddr nnn + wide (s.V x))) :=
  if_pos h

theorem execJpOfs_corrected (x : Reg) (nnn : Addr12) {s : State} (h : s.params.compat = false) :
    execJpOfs x nnn s = .next (s.setPc (immAddr nnn + wide (s.V x))) :=
  if_neg (by simp [h])

/-- The target of a corrected BNNN does not wrap: it is at most 0x10FE (spec/41_control_flow.md R117). -/
theorem immAddr_add_wide_toNat (nnn : Addr12) (b : Byte) : (immAddr nnn + wide b).toNat = nnn.toNat + b.toNat := by
  have hn := nnn.isLt
  have hb := b.isLt
  rw [BitVec.toNat_add, immAddr_toNat, wide_toNat]
  omega

theorem topNibble_eq {x : Reg} {nnn : Addr12} (h : x.toNat = nnn.toNat / 256) : x = nnn.extractLsb 11 8 := by
  have hn := nnn.isLt
  apply BitVec.eq_of_toNat_eq
  rw [BitVec.extractLsb_toNat, Nat.shiftRight_eq_div_pow, h]
  omega

/-- Settles O31: the offset is added to I under COMPAT = 1 and to the jump's target under COMPAT = 0. -/
theorem jpOfsDependsOnCompat : Obligations.JpOfsDependsOnCompat := by
  intro x nnn s hx
  refine ⟨topNibble_eq hx ▸ decode_jpOfs nnn, ?_⟩
  cases compat : s.params.compat with
  | true =>
    refine ⟨_, execJpOfs_compat x nnn compat, fun _ => ⟨?_, s.setI_frame _⟩, fun h => (Bool.noConfusion h)⟩
    rw [State.setI_i, BitVec.toNat_add, BitVec.toNat_add, immAddr_toNat, wide_toNat, Nat.mod_add_mod]
  | false =>
    exact ⟨_, execJpOfs_corrected x nnn compat, fun h => (Bool.noConfusion h),
      fun _ => ⟨immAddr_add_wide_toNat nnn _, s.setPc_frame _⟩⟩

end Sys2Proof.Machine
end

