-- ==== Sys2Proof/Proofs/BlockTransfers.lean ====
section
/-! The stores and loads of several bytes (spec/43_index_memory.md R153 to R155): each is a list of accesses at rising addresses
from I, which all happen where the last is in bounds and is undone where it is not; then the three statements. -/

namespace Sys2Proof.Machine

open Sys2Proof.Safety

/-! ### The instruction, from its list of accesses -/

/-- The stores of a list that fits answer a state framed by memory, which reads as the list there and as before elsewhere. -/
theorem commit_memWriteAll_stores {s : State} {a : Nat} {bs : List Byte} (h : a + bs.length ≤ 4096) :
    ∃ t, commit s (s.memWriteAll a bs) = .next t ∧ (∀ (k : Nat) (hk : k < bs.length), t.byteAt (a + k) = bs[k]) ∧
      (∀ n, n < a ∨ a + bs.length ≤ n → t.byteAt n = s.byteAt n) ∧ Frame [.memory] [] s t := by
  obtain ⟨t, stored, only, -, outside, inside⟩ := State.memWriteAll_ok bs s a h
  exact ⟨t, by rw [stored]; rfl, inside, outside, frame_of_onlyMem only⟩

theorem commit_memWriteAll_raises {s : State} {a : Nat} {bs : List Byte} (nonempty : bs ≠ [])
    (h : 4096 < a + bs.length) : commit s (s.memWriteAll a bs) = .next (s.withFault .boundsError) := by
  rw [State.memWriteAll_error bs s a nonempty h]
  rfl

theorem length_storedRegs (s : State) (x : Reg) : ((regsUpTo x).map s.V).length = x.toNat + 1 := by
  rw [List.length_map, length_regsUpTo]

theorem getElem_storedRegs (s : State) (x r : Reg) (h : r.toNat < ((regsUpTo x).map s.V).length) :
    ((regsUpTo x).map s.V)[r.toNat] = s.V r := by
  rw [List.getElem_map, getElem_regsUpTo, BitVec.ofNat_toNat, BitVec.setWidth_eq]

theorem storedRegs_ne_nil (s : State) (x : Reg) : (regsUpTo x).map s.V ≠ [] := by
  have h := length_storedRegs s x
  exact List.ne_nil_of_length_eq_add_one h

theorem execLdB_raises (x : Reg) {s : State} (h : 4094 ≤ s.i.toNat) :
    execLdB x s = .next (s.withFault .boundsError) := by
  have three : (decimalDigits (s.V x)).length = 3 := rfl
  exact commit_memWriteAll_raises (List.cons_ne_nil _ _) (by simp only [State.effAddr, three]; omega)

theorem execStRegs_raises {x : Reg} {s : State} (h : 4096 ≤ s.i.toNat + x.toNat) :
    execStRegs x s = .next (s.withFault .boundsError) :=
  commit_memWriteAll_raises (storedRegs_ne_nil s x) (by simp only [State.effAddr, length_storedRegs]; omega)

theorem execLdRegs_raises {x : Reg} {s : State} (h : 4096 ≤ s.i.toNat + x.toNat) :
    execLdRegs x s = .next (s.withFault .boundsError) := by
  rw [execLdRegs, State.loadEach_error _ s (s.effAddr 0) ⟨x, (mem_regsUpTo x x).2 le_rfl, h⟩]
  rfl

/-- The loads that fit answer a state of the same pieces, in which the registers up to X hold the bytes. -/
theorem execLdRegs_loads {x : Reg} {s : State} (h : s.i.toNat + x.toNat < 4096) :
    ∃ t, execLdRegs x s = .next t ∧ OnlyV s t ∧
      ∀ r, t.V r = if r.toNat ≤ x.toNat then s.byteAt (s.effAddr 0 + r.toNat) else s.V r := by
  have inBounds : ∀ k ∈ regsUpTo x, s.effAddr 0 + k.toNat < 4096 := by
    intro k hk
    have hk' := (mem_regsUpTo x k).1 hk
    simp only [State.effAddr]
    omega
  obtain ⟨t, loaded, only, regs⟩ := State.loadEach_ok (regsUpTo x) s (s.effAddr 0) inBounds
  refine ⟨t, by rw [execLdRegs, loaded]; rfl, only, fun r => ?_⟩
  simp only [regs, mem_regsUpTo]

/-! ### The statements -/

theorem decimalDigits_toNat (b : Byte) : (decimalDigits b).map BitVec.toNat =
    [b.toNat / 100, b.toNat / 10 % 10, b.toNat % 10] := by
  have hb := b.isLt
  have hundreds : b.toNat / 100 % 256 = b.toNat / 100 := Nat.mod_eq_of_lt (by omega)
  have tens : b.toNat / 10 % 10 % 256 = b.toNat / 10 % 10 := Nat.mod_eq_of_lt (by omega)
  have ones : b.toNat % 10 % 256 = b.toNat % 10 := Nat.mod_eq_of_lt (by omega)
  simp [decimalDigits, hundreds, tens, ones]

/-- Settles O45: three stores, of bytes that hold the three digits. -/
theorem ldBStoresThreeDigits : Obligations.LdBStoresThreeDigits := by
  intro x s
  refine ⟨decode_groupF x 0x33#8, fun h => ?stores, execLdB_raises x⟩
  case stores =>
    have three : (decimalDigits (s.V x)).length = 3 := rfl
    obtain ⟨t, next, inside, outside, framed⟩ :=
      commit_memWriteAll_stores (s := s) (a := s.effAddr 0) (bs := decimalDigits (s.V x))
        (by simp only [State.effAddr, three]; omega)
    have digits := decimalDigits_toNat (s.V x)
    simp only [decimalDigits, List.map_cons, List.map_nil, List.cons.injEq, and_true] at digits
    obtain ⟨hundreds, tens, ones⟩ := digits
    refine ⟨t, next, ?_, ?_, ?_, outside, framed⟩
    · exact (congrArg BitVec.toNat (inside 0 (by rw [three]; decide))).trans hundreds
    · exact (congrArg BitVec.toNat (inside 1 (by rw [three]; decide))).trans tens
    · exact (congrArg BitVec.toNat (inside 2 (by rw [three]; decide))).trans ones

/-- Settles O46: one store for each register up to X, at its own number above I. -/
theorem stRegsStoresTheRegisters : Obligations.StRegsStoresTheRegisters := by
  intro x s
  refine ⟨decode_groupF x 0x55#8, fun h => ?stores, execStRegs_raises⟩
  case stores =>
    have length := length_storedRegs s x
    obtain ⟨t, next, inside, outside, framed⟩ :=
      commit_memWriteAll_stores (s := s) (a := s.effAddr 0) (bs := (regsUpTo x).map s.V)
        (by simp only [State.effAddr, length]; omega)
    refine ⟨t, next, fun r hr => ?_, fun a ha => outside a (by omega), framed⟩
    rw [inside r.toNat (by omega), getElem_storedRegs]

/-- Settles O47: one load for each register up to X, from its own number above I. -/
theorem ldRegsLoadsTheRegisters : Obligations.LdRegsLoadsTheRegisters := by
  intro x s
  refine ⟨decode_groupF x 0x65#8, fun h => ?loads, execLdRegs_raises⟩
  case loads =>
    obtain ⟨t, next, only, regs⟩ := execLdRegs_loads h
    exact ⟨t, next, regs, same_of_onlyV only⟩

end Sys2Proof.Machine
end

