-- ==== Sys2Proof/Proofs/ResetAndLoad.lean ====
section
/-! What comes from outside a cycle (spec/70_reset_and_hazards.md R230 to R236): reset, the load of a ROM, the placing of one
word, the keys; then the four statements, and the two halves about load and SetKeys that later statements need. -/

namespace Sys2Proof.Machine

open Sys2Proof.Safety

/-! ### Reset (spec/10_state.md R34) -/

theorem byteAt_reset (p : Params) (a : Nat) : (State.resetWith p).byteAt a = Memory.unlisted p a := rfl

theorem V_reset (p : Params) (r : Reg) : (State.resetWith p).V r = 0#8 := Vector.getElem_replicate r.isLt

theorem stackAt_reset (p : Params) (k : Fin 16) : (State.resetWith p).stackAt k = 0#16 := Vector.getElem_replicate k.isLt

theorem noKey_resetWith (p : Params) : NoKey (State.resetWith p) := by
  intro k hk
  rw [State.keyDown, dif_pos hk]
  exact Vector.getElem_replicate hk

theorem inv_resetWith (p : Params) : Inv (State.resetWith p) :=
  ⟨Memory.wf_nil p, Screen.wf_nil, by rw [show (State.resetWith p).pc = 0x200#16 from rfl]; decide,
    fun k hk => absurd hk (Nat.not_lt_zero k.val)⟩

/-! ### Loading and placing bytes -/

/-- The loader is a list of stores with no bounds check, so where the list fits it is the checked one. -/
theorem memWriteAll_eq_copyIn (bs : List Byte) : ∀ (s : State) (a : Nat), a + bs.length ≤ 4096 →
    s.memWriteAll a bs = .ok (s.copyIn a bs) := by
  induction bs with
  | nil => exact fun s a _ => rfl
  | cons b rest ih =>
    intro s a h
    rw [List.length_cons] at h
    rw [State.memWriteAll, State.memWrite_ok s a b (by omega)]
    exact ih (s.setByte a b) (a + 1) (by omega)

theorem load_at_startup {s : State} {rom : List Byte} (h : s.atStartup = true) : load rom s = .next (s.loaded rom) :=
  if_pos h

theorem load_refused {s : State} (rom : List Byte) (h : s.atStartup = false) :
    load rom s = .refused .loadOutsideStartup :=
  if_neg (by simp [h])

theorem State.placeWord_inBounds (s : State) (w : Word) (h : s.pc.toNat ≤ 4094) :
    s.placeWord w = (s.setByte s.pc.toNat (highByte w)).setByte (s.pc.toNat + 1) (lowByte w) :=
  if_pos (by omega)

theorem tableWord_ofNat (w : Nat) (h : w < 65536) : tableWord 16 w = BitVec.ofNat 16 w :=
  congrArg (BitVec.ofNat 16) (Nat.mod_eq_of_lt h)

/-- The fetch reads the two bytes just placed (spec/40_cycle.md R91). -/
theorem State.fetch_placeWord (s : State) (w : Word) (h : s.pc.toNat ≤ 4094) : (s.placeWord w).fetch = .ok w := by
  rw [State.placeWord_inBounds s w h]
  refine Eq.trans (State.fetch_ok _ (Nat.lt_succ_of_le h)) ?_
  rw [State.setByte_pc, State.setByte_pc, State.byteAt_setByte_same,
    State.byteAt_setByte_ne _ _ _ _ (Nat.ne_of_lt (Nat.lt_succ_self _)), State.byteAt_setByte_same, wordOfBytes_bytes]

theorem State.byteAt_placeWord_ne (s : State) (w : Word) (a : Nat) (h : s.pc.toNat ≤ 4094) (ha : a ≠ s.pc.toNat)
    (ha' : a ≠ s.pc.toNat + 1) : (s.placeWord w).byteAt a = s.byteAt a := by
  rw [State.placeWord_inBounds s w h, State.byteAt_setByte_ne _ _ _ _ ha', State.byteAt_setByte_ne _ _ _ _ ha]

theorem State.placeWord_frame (s : State) (w : Word) (h : s.pc.toNat ≤ 4094) : Frame [.memory] [] s (s.placeWord w) := by
  rw [State.placeWord_inBounds s w h]
  exact ((s.setByte_frame _ _).trans (State.setByte_frame _ _ _)).mono (by simp) (by simp)

/-! ### The statements -/

/-- Settles O1: reset is a state written out, whose unlisted bytes are the fontset and 0. -/
theorem resetLeavesTheSpecValues : Obligations.ResetLeavesTheSpecValues := by
  intro s
  refine ⟨State.resetWith s.params, rfl, fun a h => ?fontset, fun a h _ => ?zeros, fun _ => rfl, rfl, rfl,
    stackAt_reset _, rfl, V_reset _, rfl, rfl, noKey_resetWith _, rfl, fun s' h => congrArg State.resetWith h⟩
  case fontset => rw [byteAt_reset, Memory.unlisted, dif_pos h]
  case zeros => rw [byteAt_reset, Memory.unlisted, dif_neg (Nat.not_lt.2 h)]

/-- Settles O2: memory and display list nothing, PC is 0x200, the stack is empty. -/
theorem resetMeetsTheInvariant : Obligations.ResetMeetsTheInvariant := ⟨inv_resetWith _, inv_resetWith⟩

/-- Settles O22: the placed word is two stores, and the fetch reads both. -/
theorem placedWordIsFetchedNext : Obligations.PlacedWordIsFetchedNext := by
  intro s w h hw
  rw [State.withFetchWord, tableWord_ofNat w hw]
  exact ⟨s.fetch_placeWord _ h, fun a ha ha' => s.byteAt_placeWord_ne _ a h ha ha', s.placeWord_frame _ h⟩

/-- Settles O54: a ROM that fits is a list of stores from 0x200, an oversized one sets the latch. -/
theorem loadCopiesTheRom : Obligations.LoadCopiesTheRom := by
  intro rom s
  refine ⟨fun startup fits => ?copied, fun startup oversized => ?rejected⟩
  case copied =>
    have inMemory : 0x200 + rom.length ≤ 4096 := by omega
    obtain ⟨t, stored, only, -, outside, inside⟩ := State.memWriteAll_ok rom s 0x200 inMemory
    obtain rfl : s.copyIn 0x200 rom = t := Except.ok.inj ((memWriteAll_eq_copyIn rom s _ inMemory).symm.trans stored)
    refine ⟨s.copyIn 0x200 rom, ?_, inside, outside, frame_of_onlyMem only⟩
    rw [load_at_startup startup, State.loaded, if_neg (Nat.not_lt.2 fits)]
  case rejected =>
    rw [load_at_startup startup, State.loaded, if_pos oversized]
    rfl

end Sys2Proof.Machine
end

