-- ==== Sys2Proof/Proofs/KeyInstructions.lean ====
section
/-! The instructions that read the keys (spec/45_keys_timers.md R180 to R182): what a key number and the scan for the highest
key answer, and from that what each instruction does; then the statement about the two skips. -/

namespace Sys2Proof.Machine

open Sys2Proof.Safety

/-! ### The skips on a key -/

theorem keyNumber_ok {b : Byte} (h : b.toNat ≤ 15) : keyNumber b = .ok b.toNat := if_neg (Nat.not_lt.2 h)

theorem keyNumber_error {b : Byte} (h : b.toNat > 15) : keyNumber b = .error .boundsError := if_pos h

section
variable {x : Reg} {s : State}

theorem execSkp_skips (h : (s.V x).toNat ≤ 15) : execSkp x s = .next (s.skipIf (s.keyDown (s.V x).toNat)) := by
  simp only [execSkp, keyNumber_ok h]

theorem execSknp_skips (h : (s.V x).toNat ≤ 15) : execSknp x s = .next (s.skipIf (!s.keyDown (s.V x).toNat)) := by
  simp only [execSknp, keyNumber_ok h]

theorem execSkp_raises (h : (s.V x).toNat > 15) : execSkp x s = .next (s.withFault .boundsError) := by
  simp only [execSkp, keyNumber_error h, raise]

theorem execSknp_raises (h : (s.V x).toNat > 15) : execSknp x s = .next (s.withFault .boundsError) := by
  simp only [execSknp, keyNumber_error h, raise]

/-! ### The wait for a key -/

theorem highestKey_none (h : NoKey s) : s.highestKey = none := by
  rcases s.highestKeyBelow_cases 16 with ⟨k, -, below, down, -⟩ | ⟨none, -⟩
  · exact absurd down (by rw [h k below]; decide)
  · exact none

theorem noKey_of_highestKey (h : s.highestKey = none) : NoKey s := by
  rcases s.highestKeyBelow_cases 16 with ⟨k, found, -⟩ | ⟨-, up⟩
  · cases found.symm.trans h
  · exact up

theorem highestKey_some {k : Nat} (hk : k < 16) (down : s.keyDown k = true)
    (highest : ∀ j, j < 16 → s.keyDown j = true → j ≤ k) : s.highestKey = some k := by
  rcases s.highestKeyBelow_cases 16 with ⟨j, found, below, downJ, highestJ⟩ | ⟨-, up⟩
  · exact (Nat.le_antisymm (highest j below downJ) (highestJ k hk down)) ▸ found
  · exact absurd down (by rw [up k hk]; decide)

theorem execLdVxK_takes (x : Reg) {k : Nat} (h : s.highestKey = some k) :
    execLdVxK x s = .next (s.setV x (BitVec.ofNat 8 k)) := by
  simp only [execLdVxK, h]

theorem execLdVxK_waits (x : Reg) (h : NoKey s) : execLdVxK x s = .next (s.setPc (s.pc - 2#16)) := by
  simp only [execLdVxK, highestKey_none h]

end

/-! ### The statement -/

/-- Settles O51: one skip on the key cell, under its value and under its negation; no key is numbered above 15. -/
theorem keySkipsTestTheKey : Obligations.KeySkipsTestTheKey := by
  intro x s
  refine ⟨decode_groupE x 0x9E#8, decode_groupE x 0xA1#8, fun h => ⟨?skp, ?sknp⟩,
    fun h => ⟨execSkp_raises h, execSknp_raises h⟩⟩
  case skp => exact ⟨_, execSkp_skips h, s.skipIf_frame _, s.skipIf_pc _⟩
  case sknp =>
    refine ⟨_, execSknp_skips h, s.skipIf_frame _, ?_⟩
    cases down : s.keyDown (s.V x).toNat with
    | true => rfl
    | false => rfl

end Sys2Proof.Machine
end

