-- ==== Sys2Proof/Proofs/SpriteDrawing.lean ====
section
/-! DRW (spec/44_display.md R171). The two loops of a draw toggle, one after the other, the cells of one list: that of the set
bits, row by row. No two set bits of a sprite fall on one cell, so the list toggles each of its cells once: the display is
xored with a set of cells. From that the two statements. -/

namespace Sys2Proof.Machine

open Sys2Proof.Safety

/-! ### Toggling a list of cells -/

/-- The pixels of a list drawn in order, the first that has no cell raising. -/
def State.drawCells (s : State) : List (Option (Fin 2048)) → Except ErrorKind State
  | [] => .ok s
  | o :: rest =>
    match s.drawPixel o with
    | .ok t => t.drawCells rest
    | .error e => .error e

/-- What `drawPixel` leaves at a cell. -/
def State.afterPixel (s : State) (k : Fin 2048) : State := (s.raiseVFIf (s.cell k)).toggleCell k

theorem State.cell_afterPixel (s : State) (k q : Fin 2048) :
    (s.afterPixel k).cell q = if q = k then !s.cell k else s.cell q := by
  rw [State.afterPixel, State.cell_toggleCell, State.raiseVFIf_cell, State.raiseVFIf_cell]

theorem State.VF_afterPixel (s : State) (k : Fin 2048) :
    (s.afterPixel k).V VF = if s.cell k = true then 1#8 else s.V VF := by
  simp [State.afterPixel, State.V_raiseVFIf]

theorem State.onlyDrawn_afterPixel (s : State) (k : Fin 2048) : OnlyDrawn s (s.afterPixel k) := by
  rcases s.drawPixel_cases (some k) with ⟨t, drawn, only⟩ | raised
  · cases drawn
    exact only
  · cases raised

theorem State.drawCells_cons (s : State) (k : Fin 2048) (rest : List (Option (Fin 2048))) :
    s.drawCells (some k :: rest) = (s.afterPixel k).drawCells rest := rfl

theorem State.drawCells_append (l m : List (Option (Fin 2048))) : ∀ s : State,
    s.drawCells (l ++ m) = (s.drawCells l).bind fun t => t.drawCells m := by
  induction l with
  | nil => exact fun s => rfl
  | cons o rest ih =>
    intro s
    cases o with
    | none => rfl
    | some k => exact ih (s.afterPixel k)

theorem State.drawCells_raises (l : List (Option (Fin 2048))) : ∀ s : State, none ∈ l →
    s.drawCells l = .error .boundsError := by
  induction l with
  | nil => exact fun s h => absurd h List.not_mem_nil
  | cons o rest ih =>
    intro s h
    cases o with
    | none => rfl
    | some k => exact ih (s.afterPixel k) (List.mem_of_ne_of_mem (by simp) h)

/-- A list of different cells is xored with 1 once each, and VF is raised where one of them was lit. -/
theorem State.drawCells_toggles (l : List (Option (Fin 2048))) : ∀ s : State, none ∉ l → l.Nodup →
    ∃ t, s.drawCells l = .ok t ∧ OnlyDrawn s t ∧
      (∀ q, t.cell q = if some q ∈ l then !s.cell q else s.cell q) ∧
      ((∃ q, some q ∈ l ∧ s.cell q = true) → t.V VF = 1#8) ∧
      ((∀ q, some q ∈ l → s.cell q = false) → t.V VF = s.V VF) := by
  induction l with
  | nil =>
    refine fun s _ _ => ⟨s, rfl, OnlyDrawn.rfl s, fun q => by simp, ?_, fun _ => rfl⟩
    rintro ⟨q, hq, -⟩
    exact absurd hq List.not_mem_nil
  | cons o rest ih =>
    intro s cells different
    cases o with
    | none => exact absurd List.mem_cons_self cells
    | some k =>
      obtain ⟨fresh, differentRest⟩ := List.nodup_cons.1 different
      obtain ⟨t, drawn, only, toggled, collides, clear⟩ :=
        ih (s.afterPixel k) (fun h => cells (List.mem_cons_of_mem _ h)) differentRest
      have ne_of_mem : ∀ q, some q ∈ rest → q ≠ k := fun q hq e => fresh (e ▸ hq)
      have kept : ∀ q, some q ∈ rest → (s.afterPixel k).cell q = s.cell q := fun q hq => by
        rw [State.cell_afterPixel, if_neg (ne_of_mem q hq)]
      refine ⟨t, drawn, (s.onlyDrawn_afterPixel k).trans only, fun q => ?cell, ?collision, ?noCollision⟩
      case cell =>
        rw [toggled q, State.cell_afterPixel]
        by_cases hq : q = k
        · subst hq
          simp [fresh]
        · simp [hq]
      case collision =>
        rintro ⟨q, hq, lit⟩
        by_cases later : ∃ q, some q ∈ rest ∧ (s.afterPixel k).cell q = true
        · exact collides later
        · have unlit : ∀ q, some q ∈ rest → (s.afterPixel k).cell q = false := fun q hq =>
            Bool.eq_false_iff.2 fun h => later ⟨q, hq, h⟩
          have first : q = k := by
            rcases List.mem_cons.1 hq with e | hq
            · exact Option.some.inj e
            · exact absurd ((kept q hq).symm.trans (unlit q hq)) (by simp [lit])
          rw [clear unlit, State.VF_afterPixel, if_pos (first ▸ lit)]
      case noCollision =>
        intro unlit
        rw [clear fun q hq => (kept q hq).trans (unlit q (List.mem_cons_of_mem _ hq)), State.VF_afterPixel,
          unlit k List.mem_cons_self]
        rfl

/-! ### The cells of a sprite, in the order in which the loops meet them -/

/-- The set bits of the listed rows of the sprite at I, as pairs of row and bit. -/
def State.setBits (s : State) (is : List Nat) : List (Nat × Nat) :=
  (is ×ˢ List.range 8).filter fun b => spriteBit (s.byteAt (s.effAddr b.1)) b.2

/-- Where they fall, from the start column and row. -/
def State.spriteCells (s : State) (x0 y0 : Nat) (is : List Nat) : List (Option (Fin 2048)) :=
  (s.setBits is).map fun b => pixelIndex s.params.compat x0 y0 b.1 b.2

/-- A draw changes nothing that the sprite's cells depend on. -/
theorem spriteCells_of_onlyDrawn {s t : State} (h : OnlyDrawn s t) (x0 y0 : Nat) (is : List Nat) :
    t.spriteCells x0 y0 is = s.spriteCells x0 y0 is := by
  obtain ⟨⟨d, v, rfl⟩, -, -⟩ := h
  rfl

theorem params_of_onlyDrawn {s t : State} (h : OnlyDrawn s t) : t.params = s.params := by
  obtain ⟨⟨d, v, rfl⟩, -, -⟩ := h
  rfl

theorem effAddr_of_onlyDrawn {s t : State} (h : OnlyDrawn s t) (k : Nat) : t.effAddr k = s.effAddr k := by
  obtain ⟨⟨d, v, rfl⟩, -, -⟩ := h
  rfl

/-- One row of the draw. -/
theorem State.drawBits_eq_drawCells (x0 y0 i : Nat) (sprite : Byte) (js : List Nat) : ∀ s : State,
    s.drawBits x0 y0 i sprite js =
      s.drawCells ((js.filter (spriteBit sprite)).map (pixelIndex s.params.compat x0 y0 i)) := by
  induction js with
  | nil => exact fun s => rfl
  | cons j rest ih =>
    intro s
    cases set : spriteBit sprite j with
    | false =>
      rw [State.drawBits, set, List.filter_cons_of_neg (by simp [set])]
      exact ih s
    | true =>
      rw [State.drawBits, set, List.filter_cons_of_pos set, List.map_cons, if_pos rfl]
      cases pixelIndex s.params.compat x0 y0 i j with
      | none => rfl
      | some k =>
        rw [State.drawCells_cons, ← params_of_onlyDrawn (s.onlyDrawn_afterPixel k)]
        exact ih (s.afterPixel k)

theorem State.spriteCells_cons (s : State) (x0 y0 i : Nat) (rest : List Nat) : s.spriteCells x0 y0 (i :: rest) =
    ((List.range 8).filter (spriteBit (s.byteAt (s.effAddr i)))).map (pixelIndex s.params.compat x0 y0 i) ++
      s.spriteCells x0 y0 rest := by
  simp [State.spriteCells, State.setBits, List.filter_map, Function.comp_def]

/-- Where every row is in memory, the two loops toggle the sprite's cells. -/
theorem State.drawRows_eq_drawCells (x0 y0 : Nat) (is : List Nat) : ∀ s : State, (∀ i ∈ is, s.effAddr i < 4096) →
    s.drawRows x0 y0 is = s.drawCells (s.spriteCells x0 y0 is) := by
  induction is with
  | nil => exact fun s _ => rfl
  | cons i rest ih =>
    intro s inMemory
    rw [State.drawRows, State.memRead_ok s _ (inMemory i List.mem_cons_self), State.spriteCells_cons,
      State.drawCells_append, ← State.drawBits_eq_drawCells]
    rcases s.drawBits_cases x0 y0 i (s.byteAt (s.effAddr i)) (List.range 8) with ⟨t, drawn, only⟩ | raised
    · simp only [drawn, Except.bind]
      rw [← spriteCells_of_onlyDrawn only]
      exact ih t fun j hj => effAddr_of_onlyDrawn only j ▸ inMemory j (List.mem_cons_of_mem _ hj)
    · simp only [raised, Except.bind]

/-- A row outside memory raises, if nothing before it did. -/
theorem State.drawRows_raises (x0 y0 : Nat) (is : List Nat) : ∀ s : State, (∃ i ∈ is, 4096 ≤ s.effAddr i) →
    s.drawRows x0 y0 is = .error .boundsError := by
  induction is with
  | nil => rintro s ⟨i, hi, -⟩; exact absurd hi List.not_mem_nil
  | cons j rest ih =>
    rintro s ⟨i, hi, outside⟩
    by_cases inMemory : s.effAddr j < 4096
    · rw [State.drawRows, State.memRead_ok s _ inMemory]
      rcases s.drawBits_cases x0 y0 j (s.byteAt (s.effAddr j)) (List.range 8) with ⟨t, drawn, only⟩ | raised
      · simp only [drawn]
        have ne : i ≠ j := fun e => by subst e; omega
        exact ih t ⟨i, List.mem_of_ne_of_mem ne hi, by rw [effAddr_of_onlyDrawn only]; exact outside⟩
      · simp only [raised]
    · rw [State.drawRows, State.memRead_error s _ (Nat.not_lt.1 inMemory)]

/-! ### The list of cells and the set of pixels (R171) -/

theorem pixelIndex_eq (s : State) (x y : Reg) (i j : Nat) :
    pixelIndex s.params.compat (startColumn (s.V x)) (startRow (s.V y)) i j =
      if h : pixelNumber s x y i j < 2048 then some ⟨pixelNumber s x y i j, h⟩ else none := by
  cases compat : s.params.compat with
  | true =>
    simp only [pixelIndex, pixelNumber, compat, if_true]
    rfl
  | false =>
    have wrapped : ((s.V x).toNat % 64 + j) % 64 + ((s.V y).toNat % 32 + i) % 32 * 64 < 2048 := by omega
    simp only [pixelIndex, pixelNumber, compat, Bool.false_eq_true, if_false, dif_pos wrapped]
    rfl

theorem pixelIndex_eq_some (s : State) (x y : Reg) (i j : Nat) (k : Fin 2048) :
    pixelIndex s.params.compat (startColumn (s.V x)) (startRow (s.V y)) i j = some k ↔
      pixelNumber s x y i j = k.val := by
  rw [pixelIndex_eq]
  constructor
  · intro h
    split at h
    · exact congrArg Fin.val (Option.some.inj h)
    · cases h
  · intro h
    rw [dif_pos (h ▸ k.isLt)]
    exact congrArg some (Fin.ext h)

theorem pixelIndex_eq_none (s : State) (x y : Reg) (i j : Nat) :
    pixelIndex s.params.compat (startColumn (s.V x)) (startRow (s.V y)) i j = none ↔ 2048 ≤ pixelNumber s x y i j := by
  rw [pixelIndex_eq, ← Nat.not_lt]
  constructor
  · intro h
    split at h
    · cases h
    · assumption
  · exact fun h => dif_neg h

/-- No two bits of a sprite fall on one cell. -/
theorem pixelNumber_injective (s : State) (x y : Reg) {i i' j j' : Nat} (hi : i < 16) (hi' : i' < 16) (hj : j < 8)
    (hj' : j' < 8) (h : pixelNumber s x y i j = pixelNumber s x y i' j') : i = i' ∧ j = j' := by
  unfold pixelNumber at h
  split at h
  · omega
  · omega

theorem State.mem_setBits (s : State) (n : Nat) (i j : Nat) :
    (i, j) ∈ s.setBits (List.range n) ↔ i < n ∧ j < 8 ∧ SpriteBitSet s i j := by
  simp [State.setBits, SpriteBitSet, spriteBit, State.effAddr, and_assoc]

/-- The cells that a draw in the state toggles. -/
def State.drawnCells (s : State) (x y : Reg) (n : Nibble) : List (Option (Fin 2048)) :=
  s.spriteCells (startColumn (s.V x)) (startRow (s.V y)) (List.range n.toNat)

section
variable (s : State) (x y : Reg) (n : Nibble)

theorem some_mem_drawnCells (k : Fin 2048) : some k ∈ s.drawnCells x y n ↔ SpriteCovers s x y n k.val := by
  simp only [State.drawnCells, State.spriteCells, List.mem_map, Prod.exists, State.mem_setBits, pixelIndex_eq_some,
    SpriteCovers, and_assoc]

theorem none_mem_drawnCells : none ∈ s.drawnCells x y n ↔ ∃ k, SpriteCovers s x y n k ∧ 2048 ≤ k := by
  simp only [State.drawnCells, State.spriteCells, List.mem_map, Prod.exists, State.mem_setBits, pixelIndex_eq_none,
    SpriteCovers]
  constructor
  · rintro ⟨i, j, ⟨hi, hj, set⟩, outside⟩
    exact ⟨_, ⟨i, j, hi, hj, set, rfl⟩, outside⟩
  · rintro ⟨k, ⟨i, j, hi, hj, set, rfl⟩, outside⟩
    exact ⟨i, j, ⟨hi, hj, set⟩, outside⟩

theorem drawnCells_nodup (cells : none ∉ s.drawnCells x y n) : (s.drawnCells x y n).Nodup := by
  have bits : (s.setBits (List.range n.toNat)).Nodup := (List.nodup_range.product List.nodup_range).filter _
  refine bits.map_on ?_
  rintro ⟨i, j⟩ hb ⟨i', j'⟩ hb' same
  obtain ⟨hi, hj, -⟩ := (s.mem_setBits _ _ _).1 hb
  obtain ⟨hi', hj', -⟩ := (s.mem_setBits _ _ _).1 hb'
  have hn := n.isLt
  cases cell : pixelIndex s.params.compat (startColumn (s.V x)) (startRow (s.V y)) i j with
  | none => exact absurd (List.mem_map.2 ⟨(i, j), hb, cell⟩) cells
  | some k =>
    have number := (pixelIndex_eq_some s x y i j k).1 cell
    have number' := (pixelIndex_eq_some s x y i' j' k).1 (same.symm.trans cell)
    obtain ⟨rfl, rfl⟩ := pixelNumber_injective s x y (Nat.lt_trans hi hn) (Nat.lt_trans hi' hn) hj hj'
      (number.trans number'.symm)
    rfl

/-! ### The instruction -/

theorem onlyDrawn_setVF (b : Byte) : OnlyDrawn s (s.setVF b) :=
  ⟨⟨s.display, _, rfl⟩, fun r hr => s.V_setVF_ne r b hr, id⟩

/-- What a draw that fits leaves: each covered cell toggled, VF the collision, nothing else touched. -/
def Drawn (s : State) (x y : Reg) (n : Nibble) (t : State) : Prop :=
  OnlyDrawn s t ∧ (∀ k : Fin 2048, SpriteCovers s x y n k.val → t.cell k = !s.cell k) ∧
    (∀ k : Fin 2048, ¬ SpriteCovers s x y n k.val → t.cell k = s.cell k) ∧
    ((∃ k : Fin 2048, SpriteCovers s x y n k.val ∧ s.cell k = true) → t.V VF = 1#8) ∧
    ((∀ k : Fin 2048, SpriteCovers s x y n k.val → s.cell k = false) → t.V VF = 0#8)

theorem execDrw_draws (fits : SpriteFits s x y n) : ∃ t, execDrw x y n s = .next t ∧ Drawn s x y n t := by
  obtain ⟨inMemory, onScreen⟩ := fits
  have cells : none ∉ s.drawnCells x y n := fun h => by
    obtain ⟨k, covered, outside⟩ := (none_mem_drawnCells s x y n).1 h
    exact absurd (onScreen k covered) (Nat.not_lt.2 outside)
  obtain ⟨t, drawn, only, toggled, collides, clear⟩ :=
    State.drawCells_toggles _ (s.setVF 0#8) cells (drawnCells_nodup s x y n cells)
  simp only [some_mem_drawnCells, State.setVF_cell] at toggled collides clear
  have rows := State.drawRows_eq_drawCells (startColumn (s.V x)) (startRow (s.V y)) (List.range n.toNat) (s.setVF 0#8)
    fun i hi => inMemory i (List.mem_range.1 hi)
  refine ⟨t, ?_, (onlyDrawn_setVF s 0#8).trans only, fun k hk => ?_, fun k hk => ?_, collides, fun h => ?_⟩
  · rw [execDrw, rows]
    exact congrArg (commit s) drawn
  · rw [toggled, if_pos ((some_mem_drawnCells s x y n k).2 hk)]
  · rw [toggled, if_neg (mt (some_mem_drawnCells s x y n k).1 hk)]
  · rw [clear h, State.V_setVF_same]

theorem execDrw_raises (outside : ¬ SpriteFits s x y n) : execDrw x y n s = .next (s.withFault .boundsError) := by
  have raised : (s.setVF 0#8).drawRows (startColumn (s.V x)) (startRow (s.V y)) (List.range n.toNat) =
      .error .boundsError := by
    by_cases inMemory : ∀ i, i < n.toNat → s.i.toNat + i < 4096
    · have noCell : none ∈ s.drawnCells x y n := by
        rw [none_mem_drawnCells]
        by_contra none
        exact outside ⟨inMemory, fun k covered => Nat.not_le.1 fun h => none ⟨k, covered, h⟩⟩
      have rows := State.drawRows_eq_drawCells (startColumn (s.V x)) (startRow (s.V y)) (List.range n.toNat)
        (s.setVF 0#8) fun i hi => inMemory i (List.mem_range.1 hi)
      exact rows.trans (State.drawCells_raises _ _ noCell)
    · push Not at inMemory
      obtain ⟨i, hi, beyond⟩ := inMemory
      exact State.drawRows_raises _ _ _ _ ⟨i, List.mem_range.2 hi, beyond⟩
  rw [execDrw, raised]
  rfl

end

/-- Where X and Y are not VF, a draw leaves the sprite where it was. -/
theorem spriteCovers_of_onlyDrawn {s t : State} (h : OnlyDrawn s t) {x y : Reg} (n : Nibble) (hx : x ≠ VF) (hy : y ≠ VF)
    (k : Nat) : SpriteCovers t x y n k ↔ SpriteCovers s x y n k := by
  obtain ⟨⟨d, v, rfl⟩, regs, -⟩ := h
  have number : ∀ i j, pixelNumber { s with display := d, v := v } x y i j = pixelNumber s x y i j := fun i j => by
    rw [pixelNumber, regs x hx, regs y hy]
    rfl
  simp only [SpriteCovers, number]
  exact Iff.rfl

theorem spriteFits_of_onlyDrawn {s t : State} (h : OnlyDrawn s t) {x y : Reg} {n : Nibble} (hx : x ≠ VF) (hy : y ≠ VF)
    (fits : SpriteFits s x y n) : SpriteFits t x y n := by
  obtain ⟨inMemory, onScreen⟩ := fits
  refine ⟨fun i hi => ?_, fun k covered => onScreen k ((spriteCovers_of_onlyDrawn h n hx hy k).1 covered)⟩
  exact (effAddr_of_onlyDrawn h i).trans_lt (inMemory i hi)

/-! ### The statements -/

/-- Settles O49: the loops toggle the sprite's list of cells, which are different cells. -/
theorem drwTogglesTheSpriteCells : Obligations.DrwTogglesTheSpriteCells := by
  refine fun x y n s => ⟨decode_drw x y n, fun fits => ?_, execDrw_raises s x y n⟩
  obtain ⟨t, next, only, covered, uncovered, collides, clear⟩ := execDrw_draws s x y n fits
  exact ⟨t, next, covered, uncovered, collides, clear, frame_of_onlyDrawn only⟩

/-- Settles O50: the second draw covers the same cells, and toggling a cell twice gives it back. -/
theorem drawingTwiceRestoresTheDisplay : Obligations.DrawingTwiceRestoresTheDisplay := by
  intro x y n s hx hy fits
  obtain ⟨t, next, only, covered, uncovered, -⟩ := execDrw_draws s x y n fits
  have fitsAgain := spriteFits_of_onlyDrawn only hx hy fits
  obtain ⟨u, next', -, coveredAgain, uncoveredAgain, collides, clear⟩ := execDrw_draws t x y n fitsAgain
  simp only [spriteCovers_of_onlyDrawn only n hx hy] at coveredAgain uncoveredAgain collides clear
  refine ⟨t, u, next, next', fun k => ?restored, fun flag => ?reported, collides⟩
  case restored =>
    by_cases hk : SpriteCovers s x y n k.val
    · rw [coveredAgain k hk, covered k hk, Bool.not_not]
    · rw [uncoveredAgain k hk, uncovered k hk]
  case reported =>
    by_contra noneLit
    have zero := clear fun k hk => Bool.eq_false_iff.2 fun lit => noneLit ⟨k, hk, lit⟩
    exact absurd (flag.symm.trans zero) (by decide)

end Sys2Proof.Machine
end

