-- ==== Sys2Proof/Proofs/ExecOutcomes.lean ====
section
/-! What `exec` answers, said once for all 34 instructions: where the instruction raises by the list of
spec/60_exceptions.md R202 to R204, the state with the latch set; everywhere else a next state that differs in the pieces and
registers of the instruction's own, the latch as it was and the canonical forms kept. From that the statements about every
instruction. -/

namespace Sys2Proof.Machine

open Sys2Proof.Safety

/-! ### The outcome of one instruction -/

/-- Memory and display are in their canonical forms (logs 3, 4). -/
def Canonical (s : State) : Prop := Memory.wf s.params s.mem ∧ Screen.wf s.display

/-- From `s` to `t` the instruction ran without raising. -/
structure Completes (i : Instr) (s t : State) : Prop where
  frame : Frame (partsWritten i) (regsWritten i) s t
  fault : t.fault = s.fault
  canonical : Canonical s → Canonical t

/-- What an instruction answers: it raises by the list, or it completes where the list names no error. -/
def RaisesOrCompletes (i : Instr) (s : State) (o : Host.Outcome State Fault Refusal) : Prop :=
  (∃ e, Raises s i e ∧ o = .next (s.withFault e)) ∨
    ((∀ e, ¬ Raises s i e) ∧ ∃ t, o = .next t ∧ Completes i s t)

theorem RaisesOrCompletes.raises {i : Instr} {s : State} {e : ErrorKind} {o : Host.Outcome State Fault Refusal}
    (h : Raises s i e) (next : o = .next (s.withFault e)) : RaisesOrCompletes i s o :=
  .inl ⟨e, h, next⟩

theorem RaisesOrCompletes.completes {i : Instr} {s t : State} {o : Host.Outcome State Fault Refusal}
    (quiet : ∀ e, ¬ Raises s i e) (next : o = .next t) (c : Completes i s t) : RaisesOrCompletes i s o :=
  .inr ⟨quiet, t, next, c⟩

/-- An instruction that can raise has the latch among the pieces it writes. -/
theorem fault_mem_partsWritten {s : State} {i : Instr} {e : ErrorKind} (h : Raises s i e) : .fault ∈ partsWritten i := by
  cases i with
  | ret | call | drw | skp | sknp | ldB | stRegs | ldRegs => simp [partsWritten]
  | cls | jp | seImm | sneImm | seReg | sneReg | ldImm | addImm | ldReg | or | and | xor | addReg | sub | shr | subn
  | shl | ldI | jpOfs | rnd | ldVxDt | ldDtVx | ldStVx | addI | ldVxK | ldF => exact h.elim

theorem not_raises {s : State} {i : Instr} (h : .fault ∉ partsWritten i) (e : ErrorKind) : ¬ Raises s i e :=
  fun raises => h (fault_mem_partsWritten raises)

theorem RaisesOrCompletes.silent {i : Instr} {s t : State} (h : .fault ∉ partsWritten i) (c : Completes i s t) :
    RaisesOrCompletes i s (.next t) :=
  .inr ⟨not_raises h, t, rfl, c⟩

/-! ### The canonical forms under the shared operations -/

theorem canonical_setPc {s : State} (target : Word) (h : Canonical s) : Canonical (s.setPc target) := h

theorem canonical_skipIf {s : State} (c : Bool) (h : Canonical s) : Canonical (s.skipIf c) :=
  s.skipIf_eq_setPc c ▸ canonical_setPc _ h

theorem canonical_raiseVFIf {s : State} (c : Bool) (h : Canonical s) : Canonical (s.raiseVFIf c) := by
  cases c with
  | true => exact h
  | false => exact h

theorem canonical_of_onlyV {s t : State} (only : OnlyV s t) (h : Canonical s) : Canonical t := by
  obtain ⟨v, rfl⟩ := only
  exact h

theorem canonical_of_onlyDrawn {s t : State} (only : OnlyDrawn s t) (h : Canonical s) : Canonical t := by
  obtain ⟨⟨d, v, rfl⟩, -, keeps⟩ := only
  exact ⟨h.1, keeps h.2⟩

theorem canonical_of_onlyMem {s t : State} (only : OnlyMem s t)
    (keeps : Memory.wf s.params s.mem → Memory.wf t.params t.mem) (h : Canonical s) : Canonical t := by
  obtain ⟨m, rfl⟩ := only
  exact ⟨keeps h.1, h.2⟩

/-! ### Instructions that cannot raise -/

section
variable {i : Instr} {s : State} (quiet : ∀ e, ¬ Raises s i e)
include quiet

/-- A write of one register. -/
theorem setV_completes (x : Reg) (b : Byte) (hx : x ∈ regsWritten i) : RaisesOrCompletes i s (.next (s.setV x b)) :=
  .completes quiet rfl ⟨(s.setV_frame x b).mono (List.nil_subset _) (by simpa using hx), rfl, id⟩

/-- A skip, taken or not. -/
theorem skipIf_completes (c : Bool) (hp : .pc ∈ partsWritten i) : RaisesOrCompletes i s (.next (s.skipIf c)) :=
  .completes quiet rfl
    ⟨(s.skipIf_frame c).mono (by simpa using hp) (List.nil_subset _), s.skipIf_fault c, canonical_skipIf c⟩

/-- An assignment of PC. -/
theorem setPc_completes (w : Word) (hp : .pc ∈ partsWritten i) : RaisesOrCompletes i s (.next (s.setPc w)) :=
  .completes quiet rfl ⟨(s.setPc_frame w).mono (by simpa using hp) (List.nil_subset _), rfl, id⟩

/-- An assignment of I. -/
theorem setI_completes (w : Word) (hp : .index ∈ partsWritten i) : RaisesOrCompletes i s (.next (s.setI w)) :=
  .completes quiet rfl ⟨(s.setI_frame w).mono (by simpa using hp) (List.nil_subset _), rfl, id⟩

end

theorem execJpOfs_outcome (x : Reg) (nnn : Addr12) (s : State) :
    RaisesOrCompletes (.jpOfs x nnn) s (execJpOfs x nnn s) := by
  cases compat : s.params.compat with
  | true =>
    rw [execJpOfs_compat x nnn compat]
    exact setI_completes (not_raises (by simp [partsWritten])) _ (by simp [partsWritten])
  | false =>
    rw [execJpOfs_corrected x nnn compat]
    exact setPc_completes (not_raises (by simp [partsWritten])) _ (by simp [partsWritten])

theorem execLdVxK_outcome (x : Reg) (s : State) : RaisesOrCompletes (.ldVxK x) s (execLdVxK x s) := by
  cases key : s.highestKey with
  | some k =>
    rw [execLdVxK_takes x key]
    exact setV_completes (not_raises (by simp [partsWritten])) x _ (by simp [regsWritten])
  | none =>
    rw [execLdVxK_waits x (noKey_of_highestKey key)]
    exact setPc_completes (not_raises (by simp [partsWritten])) _ (by simp [partsWritten])

/-! ### Instructions that can raise -/

theorem execRet_outcome (s : State) : RaisesOrCompletes .ret s (execRet s) := by
  rcases s.sp_zero_or_succ with empty | ⟨k, count⟩
  · exact .raises ⟨rfl, empty⟩ (execRet_underflows empty)
  · exact .completes (fun _ h => Nat.succ_ne_zero _ (count.symm.trans h.2)) (execRet_pops count)
      ⟨(s.afterRet_frame k).mono (by simp [partsWritten]) (List.nil_subset _), rfl, id⟩

theorem execCall_outcome (nnn : Addr12) (s : State) : RaisesOrCompletes (.call nnn) s (execCall nnn s) := by
  rcases s.sp_full_or_below with full | ⟨k, count⟩
  · exact .raises ⟨rfl, full⟩ (execCall_overflows nnn full)
  · exact .completes (fun _ h => Nat.ne_of_lt k.isLt (count.symm.trans h.2)) (execCall_pushes nnn count)
      ⟨(s.afterCall_frame k nnn).mono (by simp [partsWritten]) (List.nil_subset _), rfl, id⟩

theorem execSkp_outcome (x : Reg) (s : State) : RaisesOrCompletes (.skp x) s (execSkp x s) := by
  rcases Nat.lt_or_ge 15 (s.V x).toNat with noKey | key
  · exact .raises ⟨rfl, noKey⟩ (execSkp_raises noKey)
  · have quiet : ∀ e, ¬ Raises s (.skp x) e := fun _ h => Nat.not_lt.2 key h.2
    rw [execSkp_skips key]
    exact skipIf_completes quiet _ (by simp [partsWritten])

theorem execSknp_outcome (x : Reg) (s : State) : RaisesOrCompletes (.sknp x) s (execSknp x s) := by
  rcases Nat.lt_or_ge 15 (s.V x).toNat with noKey | key
  · exact .raises ⟨rfl, noKey⟩ (execSknp_raises noKey)
  · have quiet : ∀ e, ¬ Raises s (.sknp x) e := fun _ h => Nat.not_lt.2 key h.2
    rw [execSknp_skips key]
    exact skipIf_completes quiet _ (by simp [partsWritten])

theorem execDrw_outcome (x y : Reg) (n : Nibble) (s : State) : RaisesOrCompletes (.drw x y n) s (execDrw x y n s) := by
  by_cases fits : SpriteFits s x y n
  · obtain ⟨t, next, only, -⟩ := execDrw_draws s x y n fits
    have framed := frame_of_onlyDrawn only
    exact .completes (fun _ h => h.2 fits) next
      ⟨framed.mono (by simp [partsWritten]) (by simp [regsWritten]),
        (framed.same (p := .fault) (by simp)), canonical_of_onlyDrawn only⟩
  · exact .raises ⟨rfl, fits⟩ (execDrw_raises s x y n fits)

/-- A list of stores that fits completes. -/
theorem stores_complete {i : Instr} {s : State} {bs : List Byte} (quiet : ∀ e, ¬ Raises s i e)
    (hp : .memory ∈ partsWritten i) (h : s.effAddr 0 + bs.length ≤ 4096) :
    RaisesOrCompletes i s (commit s (s.memWriteAll (s.effAddr 0) bs)) := by
  obtain ⟨t, stored, only, keeps, -⟩ := State.memWriteAll_ok bs s (s.effAddr 0) h
  have framed := frame_of_onlyMem only
  exact .completes quiet (by rw [stored]; rfl)
    ⟨framed.mono (by simpa using hp) (List.nil_subset _), framed.same (p := .fault) (by simp),
      canonical_of_onlyMem only keeps⟩

theorem execLdB_outcome (x : Reg) (s : State) : RaisesOrCompletes (.ldB x) s (execLdB x s) := by
  have three : (decimalDigits (s.V x)).length = 3 := rfl
  rcases Nat.lt_or_ge s.i.toNat 4094 with fits | outside
  · exact stores_complete (fun _ h => Nat.not_le.2 fits h.2) (by simp [partsWritten])
      (by simp only [State.effAddr, three]; omega)
  · exact .raises ⟨rfl, outside⟩ (execLdB_raises x outside)

theorem execStRegs_outcome (x : Reg) (s : State) : RaisesOrCompletes (.stRegs x) s (execStRegs x s) := by
  rcases Nat.lt_or_ge (s.i.toNat + x.toNat) 4096 with fits | outside
  · exact stores_complete (fun _ h => Nat.not_le.2 fits h.2) (by simp [partsWritten])
      (by simp only [State.effAddr, length_storedRegs]; omega)
  · exact .raises ⟨rfl, outside⟩ (execStRegs_raises outside)

theorem execLdRegs_outcome (x : Reg) (s : State) : RaisesOrCompletes (.ldRegs x) s (execLdRegs x s) := by
  rcases Nat.lt_or_ge (s.i.toNat + x.toNat) 4096 with fits | outside
  · obtain ⟨t, next, only, regs⟩ := execLdRegs_loads fits
    refine .completes (fun _ h => Nat.not_le.2 fits h.2) next
      ⟨⟨fun p _ => same_of_onlyV only p, fun r hr => ?_⟩, same_of_onlyV only .fault, canonical_of_onlyV only⟩
    rw [regs r, if_neg fun h => hr ((mem_regsUpTo x r).2 h)]
  · exact .raises ⟨rfl, outside⟩ (execLdRegs_raises outside)

/-! ### Every instruction -/

theorem exec_outcome (i : Instr) (s : State) : RaisesOrCompletes i s (exec i s) := by
  cases i with
  | cls => exact .silent (by simp [partsWritten]) ⟨s.clearDisplay_frame, rfl, fun h => ⟨h.1, Screen.wf_nil⟩⟩
  | ret => exact execRet_outcome s
  | jp => exact setPc_completes (not_raises (by simp [partsWritten])) _ (by simp [partsWritten])
  | call nnn => exact execCall_outcome nnn s
  | seImm | sneImm | seReg | sneReg =>
    exact skipIf_completes (not_raises (by simp [partsWritten])) _ (by simp [partsWritten])
  | ldImm | addImm | ldReg | or | and | xor | ldVxDt =>
    exact setV_completes (not_raises (by simp [partsWritten])) _ _ (by simp [regsWritten])
  | addReg x y => exact .silent (by simp [partsWritten]) ⟨(s.setV_frame x _).trans (State.setVF_frame _ _), rfl, id⟩
  | sub | subn => exact .silent (by simp [partsWritten]) ⟨flagThenSubtract_frame s _ _ _ _, rfl, id⟩
  | shr | shl => exact .silent (by simp [partsWritten]) ⟨copyShiftFlag_frame s _ _ _ _, rfl, id⟩
  | ldI | ldF => exact setI_completes (not_raises (by simp [partsWritten])) _ (by simp [partsWritten])
  | jpOfs x nnn => exact execJpOfs_outcome x nnn s
  | rnd x nn => exact .silent (by simp [partsWritten]) ⟨(s.setV_frame x _).trans (State.countDraw_frame _), rfl, id⟩
  | drw x y n => exact execDrw_outcome x y n s
  | skp x => exact execSkp_outcome x s
  | sknp x => exact execSknp_outcome x s
  | ldDtVx => exact .silent (by simp [partsWritten]) ⟨s.setDt_frame _, rfl, id⟩
  | ldStVx => exact .silent (by simp [partsWritten]) ⟨s.setSt_frame _, rfl, id⟩
  | addI =>
    exact .silent (by simp [partsWritten])
      ⟨(s.setI_frame _).trans (State.raiseVFIf_frame _ _), State.raiseVFIf_fault _ _, fun h => canonical_raiseVFIf _ h⟩
  | ldVxK x => exact execLdVxK_outcome x s
  | ldB x => exact execLdB_outcome x s
  | stRegs x => exact execStRegs_outcome x s
  | ldRegs x => exact execLdRegs_outcome x s

theorem exec_answers (i : Instr) (s : State) : ∃ t, exec i s = .next t := by
  rcases exec_outcome i s with ⟨e, -, next⟩ | ⟨-, t, next, -⟩
  · exact ⟨_, next⟩
  · exact ⟨t, next⟩

/-! ### The random input -/

/-- The outcome with a random byte supplied in its next state. -/
def supplied (r : Fin 255) : Host.Outcome State Fault Refusal → Host.Outcome State Fault Refusal
  | .next t => .next (t.supplyRnd r)
  | .fault e => .fault e
  | .refused e => .refused e

section
variable (r : Fin 255) (s : State)

theorem skipIf_supplyRnd (c : Bool) : (s.supplyRnd r).skipIf c = (s.skipIf c).supplyRnd r := by
  rw [State.skipIf_eq_setPc, State.skipIf_eq_setPc]
  rfl

theorem raiseVFIf_supplyRnd (c : Bool) : (s.supplyRnd r).raiseVFIf c = (s.raiseVFIf c).supplyRnd r := by
  cases c with
  | true => rfl
  | false => rfl

theorem commit_supplyRnd (o : Except ErrorKind State) :
    commit (s.supplyRnd r) (o.map (State.supplyRnd · r)) = supplied r (commit s o) := by
  cases o with
  | ok t => rfl
  | error e => rfl

theorem execRet_supplyRnd : execRet (s.supplyRnd r) = supplied r (execRet s) := by
  rcases s.sp_zero_or_succ with empty | ⟨k, count⟩
  · rw [execRet_underflows empty]
    exact execRet_underflows empty
  · rw [execRet_pops count]
    exact execRet_pops count

theorem execCall_supplyRnd (nnn : Addr12) : execCall nnn (s.supplyRnd r) = supplied r (execCall nnn s) := by
  rcases s.sp_full_or_below with full | ⟨k, count⟩
  · rw [execCall_overflows nnn full]
    exact execCall_overflows nnn full
  · rw [execCall_pushes nnn count]
    exact execCall_pushes nnn count

theorem execJpOfs_supplyRnd (x : Reg) (nnn : Addr12) :
    execJpOfs x nnn (s.supplyRnd r) = supplied r (execJpOfs x nnn s) := by
  cases compat : s.params.compat with
  | true => rw [execJpOfs_compat x nnn compat]; exact execJpOfs_compat x nnn compat
  | false => rw [execJpOfs_corrected x nnn compat]; exact execJpOfs_corrected x nnn compat

theorem execSkp_supplyRnd (x : Reg) : execSkp x (s.supplyRnd r) = supplied r (execSkp x s) := by
  simp only [execSkp, State.supplyRnd_V, State.supplyRnd_keyDown, skipIf_supplyRnd]
  cases keyNumber (s.V x) with
  | ok k => rfl
  | error e => rfl

theorem execSknp_supplyRnd (x : Reg) : execSknp x (s.supplyRnd r) = supplied r (execSknp x s) := by
  simp only [execSknp, State.supplyRnd_V, State.supplyRnd_keyDown, skipIf_supplyRnd]
  cases keyNumber (s.V x) with
  | ok k => rfl
  | error e => rfl

theorem highestKeyBelow_supplyRnd (n : Nat) : (s.supplyRnd r).highestKeyBelow n = s.highestKeyBelow n := by
  induction n with
  | zero => rfl
  | succ n ih => rw [State.highestKeyBelow, State.highestKeyBelow, ih, State.supplyRnd_keyDown]

theorem execLdVxK_supplyRnd (x : Reg) : execLdVxK x (s.supplyRnd r) = supplied r (execLdVxK x s) := by
  simp only [execLdVxK, State.highestKey, highestKeyBelow_supplyRnd]
  cases s.highestKeyBelow 16 with
  | some k => rfl
  | none => rfl

end

section
variable (r : Fin 255)

theorem memWriteAll_supplyRnd (bs : List Byte) : ∀ (s : State) (a : Nat),
    (s.supplyRnd r).memWriteAll a bs = (s.memWriteAll a bs).map (State.supplyRnd · r) := by
  induction bs with
  | nil => exact fun s a => rfl
  | cons b rest ih =>
    intro s a
    by_cases h : a < 4096
    · rw [State.memWriteAll, State.memWriteAll, State.memWrite_ok s a b h, State.memWrite_ok _ a b h]
      exact ih (s.setByte a b) (a + 1)
    · rw [State.memWriteAll, State.memWriteAll, State.memWrite_error s a b (Nat.not_lt.1 h),
        State.memWrite_error _ a b (Nat.not_lt.1 h)]
      rfl

theorem loadEach_supplyRnd (ks : List Reg) : ∀ (s : State) (a : Nat),
    (s.supplyRnd r).loadEach a ks = (s.loadEach a ks).map (State.supplyRnd · r) := by
  induction ks with
  | nil => exact fun s a => rfl
  | cons k rest ih =>
    intro s a
    by_cases h : a + k.toNat < 4096
    · rw [State.loadEach, State.loadEach, State.memRead_ok s _ h, State.memRead_ok _ _ h]
      exact ih (s.setV k (s.byteAt (a + k.toNat))) a
    · rw [State.loadEach, State.loadEach, State.memRead_error s _ (Nat.not_lt.1 h),
        State.memRead_error _ _ (Nat.not_lt.1 h)]
      rfl

theorem drawCells_supplyRnd (l : List (Option (Fin 2048))) : ∀ s : State,
    (s.supplyRnd r).drawCells l = (s.drawCells l).map (State.supplyRnd · r) := by
  induction l with
  | nil => exact fun s => rfl
  | cons o rest ih =>
    intro s
    cases o with
    | none => rfl
    | some k =>
      have pixel : (s.supplyRnd r).afterPixel k = (s.afterPixel k).supplyRnd r := by
        rw [State.afterPixel, raiseVFIf_supplyRnd]
        rfl
      rw [State.drawCells_cons, State.drawCells_cons, pixel]
      exact ih (s.afterPixel k)

theorem drawRows_supplyRnd (x0 y0 : Nat) (is : List Nat) (s : State) :
    (s.supplyRnd r).drawRows x0 y0 is = (s.drawRows x0 y0 is).map (State.supplyRnd · r) := by
  by_cases inMemory : ∀ i ∈ is, s.effAddr i < 4096
  · rw [State.drawRows_eq_drawCells _ _ _ _ inMemory, State.drawRows_eq_drawCells _ _ _ (s.supplyRnd r) inMemory]
    exact drawCells_supplyRnd r _ s
  · push Not at inMemory
    rw [State.drawRows_raises _ _ _ _ inMemory, State.drawRows_raises _ _ _ (s.supplyRnd r) inMemory]
    rfl

/-- Every instruction but CXNN runs alike on any supplied random byte (spec/40_cycle.md R98). -/
theorem exec_supplyRnd (s : State) (i : Instr) (h : ∀ x nn, i ≠ .rnd x nn) :
    exec i (s.supplyRnd r) = supplied r (exec i s) := by
  cases i with
  | cls | jp | ldImm | addImm | ldReg | or | and | xor | addReg | sub | shr | subn | shl | ldI | ldVxDt | ldDtVx | ldStVx
  | ldF => rfl
  | rnd x nn => exact absurd rfl (h x nn)
  | seImm | sneImm | seReg | sneReg => exact congrArg Host.Outcome.next (skipIf_supplyRnd r s _)
  | addI x => exact congrArg Host.Outcome.next (raiseVFIf_supplyRnd r (s.setI _) _)
  | jpOfs x nnn => exact execJpOfs_supplyRnd r s x nnn
  | ret => exact execRet_supplyRnd r s
  | call nnn => exact execCall_supplyRnd r s nnn
  | skp x => exact execSkp_supplyRnd r s x
  | sknp x => exact execSknp_supplyRnd r s x
  | ldVxK x => exact execLdVxK_supplyRnd r s x
  | drw x y n =>
    exact (congrArg (commit _) (drawRows_supplyRnd r _ _ _ (s.setVF 0#8))).trans (commit_supplyRnd r s _)
  | ldB | stRegs => exact (congrArg (commit _) (memWriteAll_supplyRnd r _ s _)).trans (commit_supplyRnd r s _)
  | ldRegs x => exact (congrArg (commit _) (loadEach_supplyRnd r _ s _)).trans (commit_supplyRnd r s _)

end

/-! ### The statements -/

/-- Settles O14: a completed instruction is framed by what it writes, and one that raises writes the latch alone. -/
theorem eachInstructionWritesOnlyItsOwn : Obligations.EachInstructionWritesOnlyItsOwn := by
  intro i s t answered
  rcases exec_outcome i s with ⟨e, raises, next⟩ | ⟨-, u, next, completed⟩
  · cases next.symm.trans answered
    exact (s.withFault_frame e).mono (by simpa using fault_mem_partsWritten raises) (List.nil_subset _)
  · cases next.symm.trans answered
    exact completed.frame

/-- Settles O16: each shared operation passes the supplied byte on unread. -/
theorem onlyRndReadsTheRandomInput : Obligations.OnlyRndReadsTheRandomInput := by
  intro i s t r other next
  exact (exec_supplyRnd r s i other).trans (congrArg (supplied r) next)

end Sys2Proof.Machine
end

