-- ==== Sys2Proof/Proofs/CycleOutcomes.lean ====
section
/-! What a step does, said once (spec/40_cycle.md R90 to R99): a halted core stays, a cycle that raises is undone with the latch
set, an unmatched word is passed over, and a fetched instruction completes. The statements about the cycle are read off from
these four cases. -/

namespace Sys2Proof.Machine

open Sys2Proof.Safety

/-! ### The fetched word -/

theorem fetch_wordAtPc {s : State} (h : s.pc.toNat ≤ 4094) : s.fetch = .ok (wordAtPc s) :=
  s.fetch_ok (Nat.lt_succ_of_le h)

theorem fetches_unique {s : State} {i j : Instr} (hi : Fetches s i) (hj : Fetches s j) : i = j :=
  Except.ok.inj (hi.2.symm.trans hj.2)

theorem not_fetchesUnmatched {s : State} {i : Instr} (h : Fetches s i) : ¬ FetchesUnmatched s := by
  rintro ⟨-, why, unmatched⟩
  cases h.2.symm.trans unmatched

/-- PC past a word that was fetched has not wrapped. -/
theorem pastFetch_pc_toNat {s : State} (h : s.pc.toNat ≤ 4094) : s.pastFetch.pc.toNat = s.pc.toNat + 2 := by
  rw [State.pastFetch, State.setPc_pc, BitVec.toNat_add]
  have two : (2#16).toNat = 2 := rfl
  omega

theorem pastFetch_frame (s : State) : Frame [.pc] [] s s.pastFetch := s.setPc_frame _

/-! ### What a cycle raises -/

/-- The cycle begun in the state raises the error: at the fetch, by the instruction, or by the policy
(spec/60_exceptions.md R202 to R205). -/
def CycleRaises (s : State) (e : ErrorKind) : Prop :=
  (e = .boundsError ∧ s.pc.toNat ≥ 4095) ∨ (∃ i, Fetches s i ∧ Raises s i e) ∨
    (e = .unknownOpcodeError ∧ FetchesUnmatched s ∧ s.params.unknownOpcode = .fault)

theorem raises_pastFetch {s : State} {i : Instr} {e : ErrorKind} : Raises s.pastFetch i e ↔ Raises s i e := by
  cases i <;> exact Iff.rfl

theorem raises_unique {s : State} {i : Instr} {e e' : ErrorKind} (h : Raises s i e) (h' : Raises s i e') : e = e' := by
  cases i with
  | ret | call | drw | skp | sknp | ldB | stRegs | ldRegs => exact h.1.trans h'.1.symm
  | cls | jp | seImm | sneImm | seReg | sneReg | ldImm | addImm | ldReg | or | and | xor | addReg | sub | shr | subn
  | shl | ldI | jpOfs | rnd | ldVxDt | ldDtVx | ldStVx | addI | ldVxK | ldF => exact h.elim

/-- With an instruction fetched, the cycle raises what the instruction does. -/
theorem cycleRaises_of_fetches {s : State} {i : Instr} {e : ErrorKind} (fetched : Fetches s i) :
    CycleRaises s e ↔ Raises s i e := by
  refine ⟨?_, fun h => .inr (.inl ⟨i, fetched, h⟩)⟩
  rintro (⟨-, outside⟩ | ⟨j, fetched', raises⟩ | ⟨-, unmatched, -⟩)
  · have := fetched.1
    omega
  · exact fetches_unique fetched fetched' ▸ raises
  · exact absurd unmatched (not_fetchesUnmatched fetched)

/-- At an unmatched word, the policy decides. -/
theorem cycleRaises_of_unmatched {s : State} {e : ErrorKind} (h : FetchesUnmatched s) :
    CycleRaises s e ↔ e = .unknownOpcodeError ∧ s.params.unknownOpcode = .fault := by
  refine ⟨?_, fun ⟨he, policy⟩ => .inr (.inr ⟨he, h, policy⟩)⟩
  rintro (⟨-, outside⟩ | ⟨i, fetched, -⟩ | ⟨he, -, policy⟩)
  · have := h.1
    omega
  · exact absurd h (not_fetchesUnmatched fetched)
  · exact ⟨he, policy⟩

/-- Outside memory, the fetch raises. -/
theorem cycleRaises_of_outside {s : State} {e : ErrorKind} (h : 4095 ≤ s.pc.toNat) :
    CycleRaises s e ↔ e = .boundsError := by
  refine ⟨?_, fun he => .inl ⟨he, h⟩⟩
  rintro (⟨he, -⟩ | ⟨i, fetched, -⟩ | ⟨-, unmatched, -⟩)
  · exact he
  · have := fetched.1
    omega
  · have := unmatched.1
    omega

theorem fetch_cases (s : State) : 4095 ≤ s.pc.toNat ∨ FetchesUnmatched s ∨ ∃ i, Fetches s i := by
  rcases Nat.lt_or_ge s.pc.toNat 4095 with inside | outside
  · cases decoded : decode (wordAtPc s) with
    | error why => exact .inr (.inl ⟨Nat.le_of_lt_succ inside, why, decoded⟩)
    | ok i => exact .inr (.inr ⟨i, Nat.le_of_lt_succ inside, decoded⟩)
  · exact .inl outside

theorem cycleRaises_unique {s : State} {e e' : ErrorKind} (h : CycleRaises s e) (h' : CycleRaises s e') : e = e' := by
  rcases fetch_cases s with outside | unmatched | ⟨i, fetched⟩
  · rw [cycleRaises_of_outside outside] at h h'
    exact h.trans h'.symm
  · rw [cycleRaises_of_unmatched unmatched] at h h'
    exact h.1.trans h'.1.symm
  · rw [cycleRaises_of_fetches fetched] at h h'
    exact raises_unique h h'

/-! ### The four cases of a step -/

/-- From the first state a step goes to the second, and why. -/
inductive StepTo (s : State) : State → Prop
  | halted (e : ErrorKind) (latched : s.fault = some e) : StepTo s s
  | raised (e : ErrorKind) (run : Running s) (raises : CycleRaises s e) : StepTo s (s.withFault e)
  | ignored (run : Running s) (quiet : ∀ e, ¬ CycleRaises s e) (unmatched : FetchesUnmatched s) :
      StepTo s (endCycle s.pastFetch)
  | completed (i : Instr) (u : State) (run : Running s) (quiet : ∀ e, ¬ CycleRaises s e) (fetched : Fetches s i)
      (next : exec i s.pastFetch = .next u) (done : Completes i s.pastFetch u) : StepTo s (endCycle u)

theorem step_halted {s : State} {e : ErrorKind} (h : s.fault = some e) : step s = .next s := by
  rcases cycle_cases s with ⟨-, -, halted⟩ | ⟨run, -⟩ | ⟨run, -⟩
  · exact halted
  · cases h.symm.trans run
  · cases h.symm.trans run

theorem step_outside {s : State} (run : Running s) (h : 4095 ≤ s.pc.toNat) :
    step s = .next (s.withFault .boundsError) := by
  rcases cycle_cases s with ⟨e, latched, -⟩ | ⟨-, -, raised⟩ | ⟨-, inside, -⟩
  · cases latched.symm.trans run
  · exact raised
  · omega

/-- In bounds, a step runs the fetched word and ends the cycle. -/
theorem step_inside {s : State} (run : Running s) (h : s.pc.toNat ≤ 4094) :
    step s = finishCycle s (execWord (wordAtPc s) s.pastFetch) := by
  rcases cycle_cases s with ⟨e, latched, -⟩ | ⟨-, outside, -⟩ | ⟨-, -, runs⟩
  · cases latched.symm.trans run
  · omega
  · exact runs

theorem finishCycle_of_fault {s u : State} {e : ErrorKind} (h : u.fault = some e) :
    finishCycle s (.next u) = .next (s.withFault e) := by
  rcases finishCycle_next s u with ⟨clear, -⟩ | ⟨e', latched, undone⟩
  · cases h.symm.trans clear
  · cases h.symm.trans latched
    exact undone

theorem finishCycle_of_clear {s u : State} (h : u.fault = none) : finishCycle s (.next u) = .next (endCycle u) := by
  rcases finishCycle_next s u with ⟨-, ended⟩ | ⟨e, latched, -⟩
  · exact ended
  · cases h.symm.trans latched

theorem step_of_exec_raise {s u : State} {i : Instr} {e : ErrorKind} (run : Running s) (fetched : Fetches s i)
    (next : exec i s.pastFetch = .next u) (latched : u.fault = some e) : step s = .next (s.withFault e) := by
  have executed : execWord (wordAtPc s) s.pastFetch = .next u := by simp only [execWord, fetched.2, next]
  rw [step_inside run fetched.1, executed, finishCycle_of_fault latched]

section
variable {s : State} (run : Running s) (unmatched : FetchesUnmatched s)
include run unmatched

theorem step_unmatched : step s = finishCycle s (execUnmatched s.pastFetch) := by
  obtain ⟨inside, why, rejected⟩ := unmatched
  rw [step_inside run inside]
  simp only [execWord, rejected]

theorem step_unmatched_nop (policy : s.params.unknownOpcode = .nop) : step s = .next (endCycle s.pastFetch) := by
  have policy' : s.pastFetch.params.unknownOpcode = .nop := policy
  rw [step_unmatched run unmatched]
  simp only [execUnmatched, policy']
  exact finishCycle_of_clear run

theorem step_unmatched_fault (policy : s.params.unknownOpcode = .fault) :
    step s = .next (s.withFault .unknownOpcodeError) := by
  have policy' : s.pastFetch.params.unknownOpcode = .fault := policy
  rw [step_unmatched run unmatched]
  simp only [execUnmatched, policy', raise]
  exact finishCycle_of_fault rfl

end

theorem step_outcome (s : State) : ∃ t, step s = .next t ∧ StepTo s t := by
  cases latch : s.fault with
  | some e => exact ⟨s, step_halted latch, .halted e latch⟩
  | none =>
    rcases fetch_cases s with outside | unmatched | ⟨i, fetched⟩
    · exact ⟨_, step_outside latch outside, .raised _ latch ((cycleRaises_of_outside outside).2 rfl)⟩
    · cases policy : s.params.unknownOpcode with
      | nop =>
        refine ⟨_, step_unmatched_nop latch unmatched policy, .ignored latch (fun e h => ?_) unmatched⟩
        cases policy.symm.trans ((cycleRaises_of_unmatched unmatched).1 h).2
      | fault =>
        exact ⟨_, step_unmatched_fault latch unmatched policy,
          .raised _ latch ((cycleRaises_of_unmatched unmatched).2 ⟨rfl, policy⟩)⟩
    · rcases exec_outcome i s.pastFetch with ⟨e, raises, next⟩ | ⟨quiet, u, next, done⟩
      · exact ⟨_, step_of_exec_raise latch fetched next rfl,
          .raised e latch ((cycleRaises_of_fetches fetched).2 (raises_pastFetch.1 raises))⟩
      · exact ⟨_, step_of_exec latch fetched next (done.fault.trans latch), .completed i u latch
          (fun e h => quiet e (raises_pastFetch.2 ((cycleRaises_of_fetches fetched).1 h))) fetched next done⟩

theorem stepTo_of_step {s t : State} (h : step s = .next t) : StepTo s t := by
  obtain ⟨u, next, how⟩ := step_outcome s
  cases next.symm.trans h
  exact how

/-! ### The end of a cycle -/

theorem endCycle_fault (s : State) : (endCycle s).fault = s.fault := by
  rw [endCycle, State.dropRnd_fault, timerDecay_fault]

theorem endCycle_rnd (s : State) : (endCycle s).rnd = none := rfl

theorem endCycle_eq (s : State) : endCycle s = { s with dt := decayed s.dt, rnd := none } := by
  have dt := endCycle_dt s
  unfold endCycle timerDecay at *
  split at dt
  · rw [if_pos ‹_›, ← dt]
    rfl
  · rw [if_neg ‹_›, ← dt]
    rfl

/-- The latch after a step of a running core is clear exactly where the cycle raised nothing. -/
theorem StepTo.fault_iff {s t : State} (run : Running s) (how : StepTo s t) (e : ErrorKind) :
    t.fault = some e ↔ CycleRaises s e := by
  cases how with
  | halted e' latched => cases run.symm.trans latched
  | raised e' _ raises =>
    constructor
    · intro h
      cases h
      exact raises
    · exact fun h => congrArg some (cycleRaises_unique raises h)
  | ignored _ quiet _ =>
    have clear : (endCycle s.pastFetch).fault = none := (endCycle_fault _).trans run
    rw [clear]
    exact ⟨fun h => (by cases h), fun h => absurd h (quiet e)⟩
  | completed i u _ quiet _ _ done =>
    have clear : (endCycle u).fault = none := ((endCycle_fault _).trans done.fault).trans run
    rw [clear]
    exact ⟨fun h => (by cases h), fun h => absurd h (quiet e)⟩

/-- A cycle that raised is undone, the latch apart (spec/60_exceptions.md R206). -/
theorem StepTo.eq_withFault {s t : State} {e : ErrorKind} (run : Running s) (how : StepTo s t) (h : t.fault = some e) :
    t = s.withFault e := by
  cases how with
  | halted e' latched => cases run.symm.trans latched
  | raised e' _ _ =>
    cases h
    rfl
  | ignored _ _ _ => cases h.symm.trans ((endCycle_fault _).trans run)
  | completed i u _ _ _ _ done => cases h.symm.trans (((endCycle_fault _).trans done.fault).trans run)

/-! ### The status (R94) -/

theorem cycleStatus_halted {s : State} {e : ErrorKind} (h : s.fault = some e) : cycleStatus s = .halted e := by
  simp only [cycleStatus, h]

theorem cycleStatus_fault {s t : State} {e : ErrorKind} (run : Running s) (next : step s = .next t)
    (h : t.fault = some e) : cycleStatus s = .fault e := by
  have clear : s.fault = none := run
  have cycled : cycle s = .next t := next
  simp only [cycleStatus, clear, cycled, h]

theorem cycleStatus_completed {s t : State} (run : Running s) (next : step s = .next t) (h : t.fault = none) :
    cycleStatus s = if s.waitsForKey = true then .waitKey else .ok := by
  have clear : s.fault = none := run
  have cycled : cycle s = .next t := next
  simp only [cycleStatus, clear, cycled, h]

theorem waitsForKey_iff (s : State) : s.waitsForKey = true ↔ ∃ x, Fetches s (.ldVxK x) ∧ NoKey s := by
  rcases fetch_cases s with outside | ⟨inside, why, rejected⟩ | ⟨i, inside, decoded⟩
  · have raised : s.fetch = .error .boundsError := s.memReadWord_error _ outside
    simp only [State.waitsForKey, raised]
    exact ⟨fun h => (by cases h), fun ⟨x, fetched, _⟩ => absurd fetched.1 (by omega)⟩
  · simp only [State.waitsForKey, fetch_wordAtPc inside, rejected]
    exact ⟨fun h => (by cases h), fun ⟨x, fetched, _⟩ => (by cases fetched.2.symm.trans rejected)⟩
  · simp only [State.waitsForKey, fetch_wordAtPc inside, decoded]
    constructor
    · intro h
      split at h
      · next x _ => exact ⟨x, ⟨inside, decoded.trans ‹_›⟩, noKey_of_highestKey (Option.isNone_iff_eq_none.1 h)⟩
      · cases h
    · rintro ⟨x, fetched, up⟩
      cases decoded.symm.trans fetched.2
      exact Option.isNone_iff_eq_none.2 (highestKey_none up)

theorem not_cycleRaises_ldVxK {s : State} {x : Reg} (fetched : Fetches s (.ldVxK x)) (e : ErrorKind) :
    ¬ CycleRaises s e :=
  fun h => (cycleRaises_of_fetches fetched).1 h

/-- A running core at an FX0A reports by the keys alone. -/
theorem cycleStatus_ldVxK {s : State} {x : Reg} (run : Running s) (fetched : Fetches s (.ldVxK x)) :
    cycleStatus s = if s.waitsForKey = true then .waitKey else .ok := by
  obtain ⟨t, next, how⟩ := step_outcome s
  refine cycleStatus_completed run next ?_
  cases latch : t.fault with
  | none => rfl
  | some e => exact absurd ((how.fault_iff run e).1 latch) (not_cycleRaises_ldVxK fetched e)

/-! ### The timers through an instruction -/

/-- Only FX15 writes DT (spec/45_keys_timers.md R184). -/
theorem Completes.dt {i : Instr} {s t : State} (done : Completes i s t) (next : exec i s = .next t) :
    t.dt = delayAfter s i := by
  unfold delayAfter
  split
  · cases next
    rfl
  · next other => exact done.frame.same (p := .delay) (by cases i <;> simp_all [partsWritten])

theorem exec_st_next {i : Instr} {s t : State} (next : exec i s = .next t) : t.st = soundAfter s i := by
  obtain ⟨u, next', sound⟩ := exec_st i s
  cases next'.symm.trans next
  exact sound

theorem delayAfter_pastFetch (s : State) (i : Instr) : delayAfter s.pastFetch i = delayAfter s i := by
  cases i <;> rfl

theorem soundAfter_pastFetch (s : State) (i : Instr) : soundAfter s.pastFetch i = soundAfter s i := by
  cases i <;> rfl

/-! ### A cycle that puts PC back -/

/-- A completed cycle that leaves PC where it was changes only DT and the supplied random byte. -/
theorem putBack_frame (s : State) {target : Word} (h : target = s.pc) :
    Frame [.delay, .random] [] s (endCycle (s.pastFetch.setPc target)) := by
  have framed := ((pastFetch_frame s).trans (State.setPc_frame _ target)).trans (endCycle_frame _)
  refine framed.narrow (fun p named other => ?_) (by simp)
  cases p with
  | pc => exact (by rw [endCycle_eq]; exact h : (endCycle (s.pastFetch.setPc target)).pc = s.pc)
  | delay | random => simp at other
  | memory | display | index | stack | sound | keys | fault | params => simp at named

/-- What is fetched depends on memory and PC alone. -/
theorem fetches_of_frame {ps : List Part} {rs : List Reg} {s t : State} {i : Instr} (framed : Frame ps rs s t)
    (memory : .memory ∉ ps) (pc : .pc ∉ ps) (h : Fetches s i) : Fetches t i := by
  have samePc : t.pc = s.pc := framed.same pc
  have sameBytes : ∀ a, t.byteAt a = s.byteAt a := framed.same memory
  simpa only [Fetches, wordAtPc, samePc, sameBytes] using h

/-! ### The statements -/

/-- Settles O4: `step` is `exec` of the fetched instruction, finished. -/
theorem stepRunsTheFetchedInstruction : Obligations.StepRunsTheFetchedInstruction := by
  intro s i run fetched _
  obtain ⟨t, next⟩ := exec_answers i s.pastFetch
  exact ⟨t, next, fun clear => endCycle_eq t ▸ step_of_exec run fetched next clear,
    fun e latched => step_of_exec_raise run fetched next latched⟩

/-- Settles O5: the two-byte read raises from 4095 on, and below reads the two bytes of the word. -/
theorem fetchIsBigEndianAndBoundsChecked : Obligations.FetchIsBigEndianAndBoundsChecked :=
  fun s run => ⟨step_outside run, fun inside => ⟨wordAtPc s, wordOfBytes_toNat _ _, fetch_wordAtPc inside,
    pastFetch_pc_toNat inside, pastFetch_frame s, step_inside run inside⟩⟩

/-- Settles O6: the halted case of a step. -/
theorem haltedCoreChangesNothing : Obligations.HaltedCoreChangesNothing :=
  fun _ _ h => ⟨step_halted h, cycleStatus_halted h, rfl⟩

/-- Settles O7: of the cases of a step from a running core, only the raise sets the latch. -/
theorem faultingCycleIsUndone : Obligations.FaultingCycleIsUndone :=
  fun _ _ _ run next h => ⟨(stepTo_of_step next).eq_withFault run h, cycleStatus_fault run next h⟩

/-- Settles O8: the latch after a step is what the cycle raises, and a raise writes the latch alone. -/
theorem errorsAreRaisedExactlyWhereListed : Obligations.ErrorsAreRaisedExactlyWhereListed := by
  intro s run
  obtain ⟨t, next, how⟩ := step_outcome s
  exact ⟨t, next, fun e => ⟨how.eq_withFault run, how.fault_iff run e⟩⟩

/-- Settles O9: `exec` and `step` answer in each of their cases. -/
theorem everyStepAnswersANextState : Obligations.EveryStepAnswersANextState := by
  refine ⟨exec_answers, fun s => ?_⟩
  obtain ⟨t, next, -⟩ := step_outcome s
  exact ⟨t, next⟩

/-- Settles O10: the policy decides between passing the word over and raising. -/
theorem unmatchedWordFollowsThePolicy : Obligations.UnmatchedWordFollowsThePolicy := by
  intro s run unmatched
  refine ⟨fun policy => ?nop, fun policy => ?fault⟩
  case nop =>
    have next := step_unmatched_nop run unmatched policy
    have awake : ¬ s.waitsForKey = true := fun h => by
      obtain ⟨x, fetched, -⟩ := (waitsForKey_iff s).1 h
      exact not_fetchesUnmatched fetched unmatched
    refine ⟨?_, _, next, by rw [endCycle_eq]; rfl, endCycle_dt _, (pastFetch_frame s).trans (endCycle_frame _)⟩
    rw [cycleStatus_completed run next ((endCycle_fault _).trans run), if_neg awake]
  case fault =>
    have next := step_unmatched_fault run unmatched policy
    exact ⟨next, cycleStatus_fault run next rfl⟩

theorem neither_latched {s t : State} (run : Running s) (clear : t.fault = none) :
    ¬ (s.fault ≠ none ∨ t.fault ≠ none) :=
  fun h => h.elim (absurd run) (absurd clear)

/-- Settles O11: of the cases of a step, the decay runs in the two that complete. -/
theorem timerDecayRunsOncePerCompletedCycle : Obligations.TimerDecayRunsOncePerCompletedCycle := by
  intro s
  obtain ⟨t, next, how⟩ := step_outcome s
  refine ⟨t, next, ?_⟩
  cases how with
  | halted e latched =>
    exact ⟨fun _ => ⟨rfl, rfl⟩, fun run => (by cases latched.symm.trans run),
      fun _ run => (by cases latched.symm.trans run)⟩
  | raised e run raises =>
    exact ⟨fun _ => ⟨rfl, rfl⟩, fun _ clear => (by cases clear), fun _ _ clear => (by cases clear)⟩
  | ignored run _ unmatched =>
    have clear : (endCycle s.pastFetch).fault = none := (endCycle_fault _).trans run
    exact ⟨fun h => absurd h (neither_latched run clear), fun _ _ _ => ⟨endCycle_dt _, endCycle_st _⟩,
      fun i _ _ fetched => absurd unmatched (not_fetchesUnmatched fetched)⟩
  | completed i u run _ fetched next' done =>
    have clear : (endCycle u).fault = none := ((endCycle_fault _).trans done.fault).trans run
    refine ⟨fun h => absurd h (neither_latched run clear),
      fun _ _ unmatched => absurd unmatched (not_fetchesUnmatched fetched), fun j _ _ fetched' => ?_⟩
    obtain rfl := fetches_unique fetched fetched'
    rw [endCycle_dt, endCycle_st, done.dt next', exec_st_next next', delayAfter_pastFetch, soundAfter_pastFetch]
    exact ⟨rfl, rfl⟩

/-- Settles O12: the latch before and after the cycle, and else the wait, give the status. -/
theorem statusReportsTheCycle : Obligations.StatusReportsTheCycle := by
  intro s
  obtain ⟨t, next, -⟩ := step_outcome s
  refine ⟨t, next, fun e h => cycleStatus_halted h, fun e run h => cycleStatus_fault run next h,
    fun x run fetched up => ?wait, fun run clear awake => ?ok⟩
  case wait => rw [cycleStatus_ldVxK run fetched, if_pos ((waitsForKey_iff s).2 ⟨x, fetched, up⟩)]
  case ok =>
    rw [cycleStatus_completed run next clear, if_neg]
    intro waits
    obtain ⟨x, waiting⟩ := (waitsForKey_iff s).1 waits
    exact awake x waiting

/-- Settles O13: the jump puts PC back, so the same jump is fetched again. -/
theorem finishedProgramStaysFinished : Obligations.FinishedProgramStaysFinished := by
  rintro s ⟨run, nnn, fetched, self⟩
  have target : immAddr nnn = s.pc := BitVec.eq_of_toNat_eq ((immAddr_toNat nnn).trans self)
  have framed := putBack_frame s target
  have samePc : (endCycle (s.pastFetch.setPc (immAddr nnn))).pc = s.pc := framed.same (p := .pc) (by simp)
  refine ⟨_, step_of_exec run fetched rfl run, ⟨(endCycle_fault _).trans run, nnn, ?_, ?_⟩, endCycle_dt _, framed⟩
  · exact fetches_of_frame framed (by simp) (by simp) fetched
  · rw [samePc]
    exact self

/-- Two key files that read alike are equal. -/
theorem keys_ext {s t : State} (h : ∀ k, t.keyDown k = s.keyDown k) : t.keys = s.keys := by
  apply Vector.ext
  intro k hk
  have same := h k
  rwa [State.keyDown, State.keyDown, dif_pos hk, dif_pos hk] at same

theorem keys_params_of_frame {ps : List Part} {rs : List Reg} {s t : State} (framed : Frame ps rs s t)
    (keys : .keys ∉ ps) (params : .params ∉ ps) : t.keys = s.keys ∧ t.params = s.params :=
  ⟨keys_ext (framed.same keys), framed.same params⟩

/-- Settles O15: no case of a step writes either piece, and a halted core stays as it is. -/
theorem noStepWritesKeysOrParameters : Obligations.NoStepWritesKeysOrParameters := by
  intro s t next
  cases stepTo_of_step next with
  | halted e latched => exact ⟨rfl, rfl, fun _ h => h⟩
  | raised e run raises => exact ⟨rfl, rfl, fun e' latched => (by cases latched.symm.trans run)⟩
  | ignored run _ _ =>
    obtain ⟨keys, params⟩ := keys_params_of_frame ((pastFetch_frame s).trans (endCycle_frame _)) (by simp) (by simp)
    exact ⟨keys, params, fun e' latched => (by cases latched.symm.trans run)⟩
  | completed i u run _ _ _ done =>
    obtain ⟨keys, params⟩ := keys_params_of_frame (((pastFetch_frame s).trans done.frame).trans (endCycle_frame _))
      (by cases i <;> simp [partsWritten]) (by cases i <;> simp [partsWritten])
    exact ⟨keys, params, fun e' latched => (by cases latched.symm.trans run)⟩

/-- Settles O52: the scan answers the highest key, and with none the instruction puts PC back on itself. -/
theorem ldVxKTakesTheHighestKeyOrWaits : Obligations.LdVxKTakesTheHighestKeyOrWaits := by
  intro x s
  refine ⟨decode_groupF x 0x0A#8, fun k hk down highest => ⟨?takes, fun run fetched => ?reportsOk⟩,
    fun up => ⟨⟨_, execLdVxK_waits x up, rfl, s.setPc_frame _⟩, fun run fetched => ⟨?reportsWait, ?cycle⟩⟩⟩
  case takes =>
    refine ⟨_, execLdVxK_takes x (highestKey_some hk down highest), ?_, s.setV_frame x _⟩
    rw [State.V_setV_same, BitVec.toNat_ofNat]
    omega
  case reportsOk =>
    rw [cycleStatus_ldVxK run fetched, if_neg]
    intro waits
    obtain ⟨-, -, up⟩ := (waitsForKey_iff s).1 waits
    exact absurd down (by rw [up k hk]; decide)
  case reportsWait => rw [cycleStatus_ldVxK run fetched, if_pos ((waitsForKey_iff s).2 ⟨x, fetched, up⟩)]
  case cycle =>
    have next : exec (.ldVxK x) s.pastFetch = .next _ := execLdVxK_waits x (s := s.pastFetch) up
    exact ⟨_, step_of_exec run fetched next run, endCycle_dt _, putBack_frame s (BitVec.add_sub_cancel _ _)⟩

/-- Settles O55: `load` tests for start-up, and `step` and `exec` answer a next state in every case. -/
theorem onlyALateLoadIsRefused : Obligations.OnlyALateLoadIsRefused := by
  refine ⟨fun rom s h => load_refused rom h, fun s r => ⟨fun refused => ?_, fun i refused => ?_⟩⟩
  · obtain ⟨t, next, -⟩ := step_outcome s
    cases next.symm.trans refused
  · obtain ⟨t, next⟩ := exec_answers i s
    cases next.symm.trans refused

/-- Settles O56: SetKeys is the write of the key file, and the supplied byte is the random input of the step. -/
theorem environmentSuppliesKeysAndRandomByte : Obligations.EnvironmentSuppliesKeysAndRandomByte := by
  refine ⟨fun s ks => ⟨s.setKeys_frame ks, fun k h => dif_pos h⟩, fun s x nn r run fetched => ?_⟩
  refine ⟨_, step_of_exec (s := s.supplyRnd r) run fetched rfl run, ?_, endCycle_rnd _⟩
  rw [endCycle_V, State.countDraw_V, State.V_setV_same, rndByte_add_toNat]
  rfl

end Sys2Proof.Machine
end

