-- ==== Sys2Proof/Proofs/Invariant.lean ====
section
/-! Every step keeps the invariant (spec/10_state.md R36; spec/41_control_flow.md R110, R112). The canonical forms are kept by
every completed instruction already; what is left is where PC can go and what a CALL can push, from the state after the
fetch, in which PC is 2 to 4096. -/

namespace Sys2Proof.Machine

open Sys2Proof.Safety

/-- Where PC may be in the state after a fetch, which is also what a CALL may push. -/
def PastFetchBound (s : State) : Prop := 2 ≤ s.pc.toNat ∧ s.pc.toNat ≤ 4096

theorem pastFetchBound_pastFetch {s : State} (h : s.pc.toNat ≤ 4094) : PastFetchBound s.pastFetch := by
  have pc := pastFetch_pc_toNat h
  exact ⟨by omega, by omega⟩

/-! ### The return addresses -/

theorem stackHoldsReturns_of_same {s t : State} (same : Part.stack.same s t) (h : StackHoldsReturns s) :
    StackHoldsReturns t := by
  obtain ⟨sp, entries⟩ := same
  intro k hk
  rw [entries k]
  exact h k (sp ▸ hk)

section
variable {s t : State} (bound : PastFetchBound s) (returns : StackHoldsReturns s)
include returns

theorem execRet_keeps_returns (next : execRet s = .next t) : StackHoldsReturns t := by
  rcases s.sp_zero_or_succ with empty | ⟨j, count⟩
  · cases (execRet_underflows empty).symm.trans next
    exact returns
  · cases (execRet_pops count).symm.trans next
    exact fun k hk => returns k (count ▸ Nat.lt_succ_of_lt hk)

include bound

theorem execCall_keeps_returns (nnn : Addr12) (next : execCall nnn s = .next t) : StackHoldsReturns t := by
  rcases s.sp_full_or_below with full | ⟨j, count⟩
  · cases (execCall_overflows nnn full).symm.trans next
    exact returns
  · cases (execCall_pushes nnn count).symm.trans next
    intro k hk
    by_cases pushed : k = j
    · rw [pushed, State.afterCall_stackAt_same]
      exact bound
    · rw [State.afterCall_stackAt_ne _ _ _ _ pushed]
      have ne : k.val ≠ j.val := fun e => pushed (Fin.ext e)
      exact returns k (count ▸ Nat.lt_of_le_of_ne (Nat.le_of_lt_succ hk) ne)

theorem exec_keeps_returns {i : Instr} (next : exec i s = .next t) : StackHoldsReturns t := by
  have framed := eachInstructionWritesOnlyItsOwn i s t next
  cases i with
  | ret => exact execRet_keeps_returns returns next
  | call nnn => exact execCall_keeps_returns bound returns nnn next
  | cls | jp | seImm | sneImm | seReg | sneReg | ldImm | addImm | ldReg | or | and | xor | addReg | sub | shr | subn
  | shl | ldI | jpOfs | rnd | drw | skp | sknp | ldVxDt | ldDtVx | ldStVx | addI | ldVxK | ldF | ldB | stRegs
  | ldRegs => exact stackHoldsReturns_of_same (framed.same (by simp [partsWritten])) returns

end

/-! ### Where PC can go -/

/-- PC is at most 0x10FE, the bound of R36. -/
def PcBound (s : State) : Prop := s.pc.toNat ≤ 0x10FE

theorem pcBound_of_immAddr {t : State} {nnn : Addr12} (jumped : t.pc = immAddr nnn) : PcBound t := by
  have address := nnn.isLt
  rw [PcBound, jumped, immAddr_toNat]
  omega

section
variable {s t : State} (bound : PastFetchBound s)
include bound

theorem pcBound_of_same (same : t.pc = s.pc) : PcBound t := by
  have high := bound.2
  rw [PcBound, same]
  omega

theorem pcBound_skipIf (c : Bool) : PcBound (s.skipIf c) := by
  have high := bound.2
  rw [PcBound, State.skipIf_pc]
  split
  · rw [BitVec.toNat_add, show (2#16).toNat = 2 from rfl]
    omega
  · omega

/-- A key skip tests, or raises with PC as it was. -/
theorem execSkp_pcBound (x : Reg) (next : execSkp x s = .next t) : PcBound t := by
  rcases Nat.lt_or_ge 15 (s.V x).toNat with noKey | key
  · cases (execSkp_raises noKey).symm.trans next
    exact pcBound_of_same bound rfl
  · cases (execSkp_skips key).symm.trans next
    exact pcBound_skipIf bound _

theorem execSknp_pcBound (x : Reg) (next : execSknp x s = .next t) : PcBound t := by
  rcases Nat.lt_or_ge 15 (s.V x).toNat with noKey | key
  · cases (execSknp_raises noKey).symm.trans next
    exact pcBound_of_same bound rfl
  · cases (execSknp_skips key).symm.trans next
    exact pcBound_skipIf bound _

/-- The wait for a key puts PC back on the instruction. -/
theorem execLdVxK_pcBound (x : Reg) (next : execLdVxK x s = .next t) : PcBound t := by
  cases key : s.highestKey with
  | some k =>
    cases (execLdVxK_takes x key).symm.trans next
    exact pcBound_of_same bound rfl
  | none =>
    cases (execLdVxK_waits x (noKey_of_highestKey key)).symm.trans next
    obtain ⟨low, high⟩ := bound
    rw [PcBound, State.setPc_pc, BitVec.toNat_sub, show (2#16).toNat = 2 from rfl]
    omega

theorem execJpOfs_pcBound (x : Reg) (nnn : Addr12) (next : execJpOfs x nnn s = .next t) : PcBound t := by
  cases compat : s.params.compat with
  | true =>
    cases (execJpOfs_compat x nnn compat).symm.trans next
    exact pcBound_of_same bound rfl
  | false =>
    cases (execJpOfs_corrected x nnn compat).symm.trans next
    have address := nnn.isLt
    have offset := (s.V x).isLt
    rw [PcBound, State.setPc_pc, immAddr_add_wide_toNat]
    omega

theorem execCall_pcBound (nnn : Addr12) (next : execCall nnn s = .next t) : PcBound t := by
  rcases s.sp_full_or_below with full | ⟨k, count⟩
  · cases (execCall_overflows nnn full).symm.trans next
    exact pcBound_of_same bound rfl
  · cases (execCall_pushes nnn count).symm.trans next
    exact pcBound_of_immAddr rfl

/-- A RET goes to one of the addresses that a CALL pushed. -/
theorem execRet_pcBound (returns : StackHoldsReturns s) (next : execRet s = .next t) : PcBound t := by
  rcases s.sp_zero_or_succ with empty | ⟨k, count⟩
  · cases (execRet_underflows empty).symm.trans next
    exact pcBound_of_same bound rfl
  · cases (execRet_pops count).symm.trans next
    obtain ⟨-, high⟩ := returns k (count ▸ Nat.lt_succ_self _)
    exact Nat.le_trans high (by decide)

theorem exec_pcBound {i : Instr} (returns : StackHoldsReturns s) (next : exec i s = .next t) : PcBound t := by
  have framed := eachInstructionWritesOnlyItsOwn i s t next
  cases i with
  | ret => exact execRet_pcBound bound returns next
  | jp nnn =>
    cases next
    exact pcBound_of_immAddr rfl
  | call nnn => exact execCall_pcBound bound nnn next
  | seImm | sneImm | seReg | sneReg =>
    cases next
    exact pcBound_skipIf bound _
  | jpOfs x nnn => exact execJpOfs_pcBound bound x nnn next
  | skp x => exact execSkp_pcBound bound x next
  | sknp x => exact execSknp_pcBound bound x next
  | ldVxK x => exact execLdVxK_pcBound bound x next
  | cls | ldImm | addImm | ldReg | or | and | xor | addReg | sub | shr | subn | shl | ldI | rnd | drw | ldVxDt | ldDtVx
  | ldStVx | addI | ldF | ldB | stRegs | ldRegs =>
    exact pcBound_of_same bound (framed.same (p := .pc) (by simp [partsWritten]))

end

/-! ### The step -/

/-- The end of a cycle touches nothing that the invariant speaks of. -/
theorem inv_endCycle {s : State} (h : Inv s) : Inv (endCycle s) := by
  rw [endCycle_eq]
  exact h

/-- Settles O3: a step that stays or is undone keeps every clause as it was, and one that completes keeps the canonical forms
with its instruction, and PC and the stack by the bounds of the state after the fetch. -/
theorem stepKeepsTheInvariant : Obligations.StepKeepsTheInvariant := by
  intro s t inv next
  have ⟨memory, display, _, returns⟩ := inv
  cases stepTo_of_step next with
  | halted e latched => exact inv
  | raised e run raises => exact inv
  | ignored run quiet unmatched =>
    exact inv_endCycle ⟨memory, display, pcBound_of_same (pastFetchBound_pastFetch unmatched.1) rfl, returns⟩
  | completed i u run quiet fetched next' done =>
    have bound := pastFetchBound_pastFetch fetched.1
    obtain ⟨memory', display'⟩ := done.canonical ⟨memory, display⟩
    exact inv_endCycle ⟨memory', display', exec_pcBound bound returns next', exec_keeps_returns bound returns next'⟩

end Sys2Proof.Machine
end
